-- ==== Sys2Proof/Word.lean ====
section
/-! DEFINITION. The widths of the engine's words (spec/00_scope.md R6, R8; spec/30_encoding.md R60, R64) and the
digit type. No operation stands here: the arithmetic is in Machine/Numbers.lean. -/

namespace Sys2Proof

/-- A symbol on the wire: a byte of plaintext, or an 8-bit character code (20_memory R46, 30_encoding R73). -/
abbrev Byte := BitVec 8

/-- A command word (30_encoding R60). -/
abbrev CmdWord := BitVec 16

/-- The DATA field of a response, and a status register as delivered (30_encoding R64, 10_state R23). -/
abbrev Data := BitVec 16

/-- A response word (30_encoding R64). -/
abbrev RspWord := BitVec 32

/-- A base-58 digit, an index into the alphabet. The hardware holds it in 6 bits; the values 58 to 63 never occur
and are left out of the type (10_state R12, R16; 93_implementation_defined U4). DEDUCED, log 9. -/
abbrev Digit := Fin 58

end Sys2Proof
end

