-- ==== Sys2Proof/Syntax.lean ====
section
/-! DEFINITION. The 14 commands (spec/30_encoding.md R61, R66; spec/opcode_table.json). -/

namespace Sys2Proof

/-- One constructor per row of the opcode table. A byte operand is an 8-bit symbol; an index operand is an unsigned
natural number, which a command word can give from 0 to 4095 (30_encoding R62): `Instr.wf` checks the range. -/
inductive Instr where
  | nop
  | clr
  | encb (b : Byte)
  | divs
  | encf
  | popc
  | decc (c : Byte)
  | decf
  | popb
  | luta (idx : Nat)
  | lutv (c : Byte)
  | rdsr (idx : Nat)
  | rdab (idx : Nat)
  | rdds (idx : Nat)
deriving DecidableEq, Repr

end Sys2Proof
end

