-- ==== Sys2Proof/WellFormed.lean ====
section
/-! DEFINITION. Which commands a command word can carry (spec/30_encoding.md R61, R62). -/

namespace Sys2Proof

/-- The 12-bit index field: 0 to 4095 (30_encoding R61, format X). -/
def indexFits (idx : Nat) : Bool := decide (idx < 4096)

/-- A command is well formed when its operand fits its field. A byte operand always does. -/
def Instr.wf : Instr → Bool
  | .nop => true
  | .clr => true
  | .encb _ => true
  | .divs => true
  | .encf => true
  | .popc => true
  | .decc _ => true
  | .decf => true
  | .popb => true
  | .luta idx => indexFits idx
  | .lutv _ => true
  | .rdsr idx => indexFits idx
  | .rdab idx => indexFits idx
  | .rdds idx => indexFits idx

end Sys2Proof
end

