-- ==== Sys2Proof/Decode.lean ====
section
/-! DEFINITION. The decoder and the encoder of command words (spec/30_encoding.md R60 to R69), and the opcode table
with its match and mask (R66). -/

namespace Sys2Proof

/-! ## The fields of a command word (R60, R61) -/

/-- OP, bits [15:12]. -/
def fieldOp (w : CmdWord) : BitVec 4 := w.extractLsb' 12 4

/-- ARG, bits [11:0]; in format X the index IDX. -/
def fieldArg (w : CmdWord) : BitVec 12 := w.extractLsb' 0 12

/-- ARG[11:8], which format B requires to be zero. -/
def fieldUpper (w : CmdWord) : BitVec 4 := w.extractLsb' 8 4

/-- ARG[7:0]: in format B the symbol IMM8, and for every faulting word what ERRCH records (60_exceptions R178). -/
def fieldLow (w : CmdWord) : Byte := w.extractLsb' 0 8

/-! ## The decoder -/

/-- Why a word is not a command (R63, R67). Whatever the reason, the engine faults EILL (60_exceptions R176). -/
inductive IllegalWord where
  /-- OP is 0xE or 0xF. -/
  | reservedOpcode
  /-- A format Z opcode with ARG not zero. -/
  | operandNotZero
  /-- A format B opcode with ARG[11:8] not zero. -/
  | upperOperandNotZero
deriving DecidableEq, Repr

/-- Format Z: ARG must be 0x000. -/
def decodeZ (w : CmdWord) (i : Instr) : Except IllegalWord Instr :=
  if fieldArg w = 0 then .ok i else .error .operandNotZero

/-- Format B: ARG[11:8] must be 0x0, ARG[7:0] is the symbol. -/
def decodeB (w : CmdWord) (mk : Byte → Instr) : Except IllegalWord Instr :=
  if fieldUpper w = 0 then .ok (mk (fieldLow w)) else .error .upperOperandNotZero

/-- Format X: ARG is the index. -/
def decodeX (w : CmdWord) (mk : Nat → Instr) : Except IllegalWord Instr :=
  .ok (mk (fieldArg w).toNat)

/-- Every word is a command or is rejected by name (R66, R67, R68). -/
def decode (w : CmdWord) : Except IllegalWord Instr :=
  match (fieldOp w).toNat with
  | 0x0 => decodeZ w .nop
  | 0x1 => decodeZ w .clr
  | 0x2 => decodeB w .encb
  | 0x3 => decodeZ w .divs
  | 0x4 => decodeZ w .encf
  | 0x5 => decodeZ w .popc
  | 0x6 => decodeB w .decc
  | 0x7 => decodeZ w .decf
  | 0x8 => decodeZ w .popb
  | 0x9 => decodeX w .luta
  | 0xA => decodeB w .lutv
  | 0xB => decodeX w .rdsr
  | 0xC => decodeX w .rdab
  | 0xD => decodeX w .rdds
  | _ => .error .reservedOpcode

/-! ## The encoder, from the same table -/

/-- Format Z. -/
def encodeZ (op : BitVec 4) : CmdWord := op ++ 0#12

/-- Format B. -/
def encodeB (op : BitVec 4) (b : Byte) : CmdWord := op ++ 0#4 ++ b

/-- Format X. -/
def encodeX (op : BitVec 4) (idx : Nat) : CmdWord := op ++ BitVec.ofNat 12 idx

/-- The word of a command (R66). On an ill-formed index the field holds its low 12 bits; no decoded command is
ill formed. -/
def encode : Instr → CmdWord
  | .nop => encodeZ 0x0
  | .clr => encodeZ 0x1
  | .encb b => encodeB 0x2 b
  | .divs => encodeZ 0x3
  | .encf => encodeZ 0x4
  | .popc => encodeZ 0x5
  | .decc c => encodeB 0x6 c
  | .decf => encodeZ 0x7
  | .popb => encodeZ 0x8
  | .luta idx => encodeX 0x9 idx
  | .lutv c => encodeB 0xA c
  | .rdsr idx => encodeX 0xB idx
  | .rdab idx => encodeX 0xC idx
  | .rdds idx => encodeX 0xD idx

/-! ## The opcode table (R66) -/

/-- A row of the opcode table: a word `w` selects the row when `w & mask = pattern`. -/
structure OpcodeRow where
  mnemonic : String
  pattern : CmdWord
  mask : CmdWord
deriving DecidableEq, Repr

/-- The row a command belongs to. -/
def rowOf : Instr → OpcodeRow
  | .nop => ⟨"NOP", 0x0000, 0xFFFF⟩
  | .clr => ⟨"CLR", 0x1000, 0xFFFF⟩
  | .encb _ => ⟨"ENCB", 0x2000, 0xFF00⟩
  | .divs => ⟨"DIVS", 0x3000, 0xFFFF⟩
  | .encf => ⟨"ENCF", 0x4000, 0xFFFF⟩
  | .popc => ⟨"POPC", 0x5000, 0xFFFF⟩
  | .decc _ => ⟨"DECC", 0x6000, 0xFF00⟩
  | .decf => ⟨"DECF", 0x7000, 0xFFFF⟩
  | .popb => ⟨"POPB", 0x8000, 0xFFFF⟩
  | .luta _ => ⟨"LUTA", 0x9000, 0xF000⟩
  | .lutv _ => ⟨"LUTV", 0xA000, 0xFF00⟩
  | .rdsr _ => ⟨"RDSR", 0xB000, 0xF000⟩
  | .rdab _ => ⟨"RDAB", 0xC000, 0xF000⟩
  | .rdds _ => ⟨"RDDS", 0xD000, 0xF000⟩

/-- The 14 rows, in the order of opcodes. -/
def opcodeTable : List OpcodeRow :=
  [.nop, .clr, .encb 0, .divs, .encf, .popc, .decc 0, .decf, .popb, .luta 0, .lutv 0, .rdsr 0, .rdab 0,
    .rdds 0].map rowOf

/-- `w & mask = match` (R66). -/
def OpcodeRow.selects (r : OpcodeRow) (w : CmdWord) : Bool := w &&& r.mask == r.pattern

/-! ## The host's reading of the opcode table -/

/-- The word whose bits are `w`, the bits at and above `nbits` zero. A command is one 16-bit word (R60), so bits
above 15 are not part of it. -/
def tableWord (nbits w : Nat) : CmdWord := BitVec.ofNat 16 (w % 2 ^ nbits)

/-- What the decoder reads from that word. -/
def decodeTableWord (nbits w : Nat) : Option Instr :=
  match decode (tableWord nbits w) with
  | .ok i => some i
  | .error _ => none

end Sys2Proof
end

