-- ==== Sys2Proof/Config.lean ====
section
/-! DEFINITION. The implementation parameter of the engine (spec/00_scope.md R6; spec/92_eei_decisions.md D5). -/

namespace Sys2Proof

/-- What is fixed when the engine is built. `accBytes` is `ACC_BYTES`, written A, which the spec leaves OPEN and
makes an argument of the model (00_scope R6). `DSTK_DEPTH`, written S, is a function of it: `Machine.dstkDepth`. -/
structure Config where
  accBytes : Nat
deriving DecidableEq, Repr

/-- "any integer with 1 <= A <= 4096" (00_scope R6). -/
abbrev Config.Legal (c : Config) : Prop := 1 ≤ c.accBytes ∧ c.accBytes ≤ 4096

/-- The engine of the spec's test vectors, A = 8 (95_test_vectors, "Conventions"). Only `State.reset` names it, so
that a run from reset can be evaluated; no claim rests on the value. DESIGN CHOICE, log 1. -/
def Config.testVectors : Config where
  accBytes := 8

end Sys2Proof
end

