-- ==== Sys2Proof/Machine/State.lean ====
section
/-! DEFINITION. The state of the engine (spec/10_state.md R10 to R21), the reasons a step can stop, and the state
after reset (R34; spec/70_reset_and_hazards.md R200). -/

namespace Sys2Proof.Machine

/-- PHASE (R18). The value 6 is never taken and is left out of the type (93_implementation_defined U4; log 9). -/
inductive Phase where
  | idle
  | encIn
  | encDiv
  | encOut
  | decIn
  | decOut
  | fault
deriving DecidableEq, Repr

/-- The six fault causes (60_exceptions R170). -/
inductive Cause where
  | einvch
  | ecap
  | estk
  | epad
  | eproto
  | eill
deriving DecidableEq, Repr

/-- One thing the host does that the engine answers to: it presents a command word, or it asserts reset between two
commands (70_reset_and_hazards R203, R216). -/
inductive HostEvent where
  | command (w : CmdWord)
  | reset
deriving DecidableEq, Repr

/-- The engine and its two channels. The fields `acc` to `errch` are the components of R10, with SP the length of
`dstk` (stored once, log 2); `cfg` is the parameter of 00_scope R6, which nothing writes (log 1); `host` and `rsp`
are the model's own (logs 3 and 4). -/
structure State where
  /-- A, and through it S (00_scope R6). -/
  cfg : Config
  /-- ACC, the natural number (R11). Its bound ACC < 256^A is an invariant (R33 item 1, log 10). -/
  acc : Nat
  /-- REM (R12). -/
  rem : Digit
  /-- PAD (R14). -/
  pad : BitVec 16
  /-- LEAD (R13). -/
  lead : Bool
  /-- DSTK[0] to DSTK[SP-1], in that order (R15, R16). -/
  dstk : List Digit
  /-- OIDX (R17). -/
  oidx : BitVec 16
  /-- PHASE (R18). -/
  phase : Phase
  /-- ERR (R19); `none` is the code 0, no fault recorded. -/
  err : Option Cause
  /-- ERRCH (R20). -/
  errch : Byte
  /-- What the host will present, in order (30_encoding R75). -/
  host : List HostEvent
  /-- The responses given so far, oldest first (30_encoding R64, R75). -/
  rsp : List RspWord
deriving DecidableEq, Repr

/-- Reasons to stop with a fault: there is none. A fault of this hardware is a state the engine goes on from
(60_exceptions R178, R179), and every word has a defined outcome in every phase (30_encoding R70,
70_reset_and_hazards R216), so no step ends here. Log 13. -/
inductive Fault
deriving DecidableEq, Repr

/-- Reasons to refuse. -/
inductive Refusal where
  /-- Raised only by an arm of `exec` whose command has no meaning yet (safe); no arm does. -/
  | notModelled (mnemonic : String)
deriving DecidableEq, Repr

/-- The engine with parameter `c` right after reset (R34), nothing presented and nothing answered. -/
def State.resetOf (c : Config) : State where
  cfg := c
  acc := 0
  rem := 0
  pad := 0
  lead := true
  dstk := []
  oidx := 0
  phase := .idle
  err := none
  errch := 0
  host := []
  rsp := []

/-- The machine right after reset. The spec leaves A open; this state names A = 8 (DESIGN CHOICE, log 1). Claims
about reset are stated for `State.resetOf c` with any legal `c`. -/
def State.reset : State := State.resetOf Config.testVectors

end Sys2Proof.Machine
end

