-- ==== Sys2Proof/Machine/Numbers.lean ====
section
/-! DEFINITION. The arithmetic of the engine on unsigned naturals (spec/00_scope.md R6, R8;
spec/40_reference_codec.md R87, R88). -/

namespace Sys2Proof.Machine

/-- Counts the digits of `n` in base `b` by dividing until zero, at most `fuel` times. -/
def numLenUpTo (b : Nat) : Nat → Nat → Nat
  | 0, _ => 0
  | fuel + 1, n => if n = 0 then 0 else numLenUpTo b fuel (n / b) + 1

/-- The least k with n < b^k, for b >= 2. -/
def numLen (b n : Nat) : Nat := numLenUpTo b n n

/-- `bytelen(n)`, the least k with n < 256^k (00_scope R8). -/
def bytelen (n : Nat) : Nat := numLen 256 n

/-- `ndigits(n)`, the least k with n < 58^k (00_scope R8). -/
def ndigits (n : Nat) : Nat := numLen 58 n

/-- `n mod 58`, a digit (40_reference_codec R88). -/
def remDigit (n : Nat) : Digit := ⟨n % 58, Nat.mod_lt n (by decide)⟩

/-- `n.b[i] = (n div 256^i) mod 256`, byte 0 least significant (10_state R11). -/
def accByte (n i : Nat) : Byte := BitVec.ofNat 8 (n / 256 ^ i % 256)

/-- `256^A`, the first value ACC cannot hold (00_scope R6). -/
def accLimit (c : Config) : Nat := 256 ^ c.accBytes

/-- S, the least natural with 58^S >= 256^A, that is, with 256^A - 1 < 58^S (00_scope R6). -/
def dstkDepth (c : Config) : Nat := ndigits (accLimit c - 1)

end Sys2Proof.Machine
end

