-- ==== Sys2Proof/Machine/Flags.lean ====
section
/-! DEFINITION. The status flags and the STATUS byte (spec/10_state.md R18, R19, R22, R24). -/

namespace Sys2Proof.Machine

/-- The value of PHASE (R18). -/
def Phase.code : Phase → BitVec 3
  | .idle => 0
  | .encIn => 1
  | .encDiv => 2
  | .encOut => 3
  | .decIn => 4
  | .decOut => 5
  | .fault => 7

/-- The cause code (R19, 60_exceptions R170). -/
def Cause.code : Cause → BitVec 3
  | .einvch => 1
  | .ecap => 2
  | .estk => 3
  | .epad => 4
  | .eproto => 5
  | .eill => 6

/-- The value of ERR (R19). -/
def errCode : Option Cause → BitVec 3
  | none => 0
  | some c => c.code

/-- SP, the number of valid entries of DSTK (R15). -/
def State.sp (s : State) : Nat := s.dstk.length

/-- Z: ACC = 0 (R22). -/
def flagZ (s : State) : Bool := s.acc == 0

/-- ORDY: an output symbol is ready (R22). -/
def flagORDY (s : State) : Bool :=
  (s.phase == .encOut && (s.pad != 0 || s.sp != 0)) || (s.phase == .decOut && (s.pad != 0 || s.oidx != 0))

/-- FLT: ERR is not 0 (R22). -/
def flagFLT (s : State) : Bool := s.err != none

/-- STATUS: PHASE in [2:0], Z [3], LEAD [4], ORDY [5], [6] reads 0, FLT [7] (R24). -/
def statusByte (s : State) : Byte :=
  BitVec.ofBool (flagFLT s) ++ 0#1 ++ BitVec.ofBool (flagORDY s) ++ BitVec.ofBool s.lead ++
    BitVec.ofBool (flagZ s) ++ s.phase.code

/-- ERRINFO: {00000, ERR, ERRCH} (R27). -/
def errInfo (s : State) : Data := 0#5 ++ errCode s.err ++ s.errch

end Sys2Proof.Machine
end

