-- ==== Sys2Proof/Machine/Operands.lean ====
section
/-! DEFINITION. The five index spaces of the engine (spec/20_memory.md R40 to R45): ALPHA, INV, the ACC bytes, DSTK
and the status registers. A space answers `none` for an index that selects nothing. -/

namespace Sys2Proof.Machine

/-- The 58 characters, index 0 to 57, in the codes of the table of 10_state R31, which the spec takes from general
knowledge (93_implementation_defined U7). UNVERIFIED, log 14. -/
def alphabet : List Byte :=
  [0x31, 0x32, 0x33, 0x34, 0x35, 0x36, 0x37, 0x38, 0x39] ++
  [0x41, 0x42, 0x43, 0x44, 0x45, 0x46, 0x47, 0x48, 0x4A, 0x4B, 0x4C, 0x4D, 0x4E] ++
  [0x50, 0x51, 0x52, 0x53, 0x54, 0x55, 0x56, 0x57, 0x58, 0x59, 0x5A] ++
  [0x61, 0x62, 0x63, 0x64, 0x65, 0x66, 0x67, 0x68, 0x69, 0x6A, 0x6B] ++
  [0x6D, 0x6E, 0x6F, 0x70, 0x71, 0x72, 0x73, 0x74, 0x75, 0x76, 0x77, 0x78, 0x79, 0x7A]

/-- ALPHA[d] (10_state R31). -/
def alpha (d : Digit) : Byte := alphabet[d.val]'(Nat.lt_of_lt_of_eq d.isLt (by decide))

/-- The digit of a character, if it is in the alphabet (10_state R32; the source's `index_of`). -/
def digitOf (c : Byte) : Option Digit := (List.finRange 58).find? fun d => alpha d == c

/-- INV[c] = {invalid, digit[5:0]}: {0, i} for the code of character i, {1, 000000} for every other (10_state R32). -/
def invEntry (c : Byte) : BitVec 7 :=
  match digitOf c with
  | some d => 0#1 ++ BitVec.ofNat 6 d.val
  | none => 1#1 ++ 0#6

/-- A byte, zero-extended into DATA (30_encoding R73). -/
def dataOfByte (b : Byte) : Data := b.zeroExtend 16

/-- A digit, zero-extended into DATA. -/
def dataOfDigit (d : Digit) : Data := BitVec.ofNat 16 d.val

/-- The ALPHA space: 0 to 57 (20_memory R41). -/
def readAlpha (i : Nat) : Option Data :=
  if h : i < 58 then some (dataOfByte (alpha ⟨i, h⟩)) else none

/-- The ACC byte space: 0 to A-1 (20_memory R43). -/
def readAccByte (s : State) (i : Nat) : Option Data :=
  if i < s.cfg.accBytes then some (dataOfByte (accByte s.acc i)) else none

/-- The DSTK space: 0 to SP-1 (20_memory R44). -/
def readDigit (s : State) (i : Nat) : Option Data := s.dstk[i]?.map dataOfDigit

/-- The status registers SR0 to SR9 (10_state R23 to R30; 20_memory R45). -/
def readSR (s : State) : Nat → Option Data
  | 0 => some ((statusByte s).zeroExtend 16)
  | 1 => some s.pad
  | 2 => some (BitVec.ofNat 16 s.sp)
  | 3 => some (dataOfDigit s.rem)
  | 4 => some (errInfo s)
  | 5 => some s.oidx
  | 6 => some (BitVec.ofNat 16 (bytelen s.acc))
  | 7 => some (BitVec.ofNat 16 s.cfg.accBytes)
  | 8 => some (BitVec.ofNat 16 (dstkDepth s.cfg))
  | 9 => some 0x0B58
  | _ => none

end Sys2Proof.Machine
end

