-- ==== Sys2Proof/Machine/Ops.lean ====
section
/-! DEFINITION. The operations the meanings share: answering, taking a fault, refusing in FAULT, clearing, the
phase check, one division step, and taking the next thing the host presents. -/

namespace Sys2Proof.Machine

/-! ## Responses (spec/30_encoding.md R64, R65, R75) -/

/-- A response word: [31:25] zero, OK [24], STATUS [23:16], DATA [15:0] (R64). -/
def responseWord (ok : Bool) (status : Byte) (data : Data) : RspWord :=
  0#7 ++ BitVec.ofBool ok ++ status ++ data

/-- `respond(ok, data)`: gives the one response of a command. `s` is the state after the command's writes, whose
STATUS the response shows (R64, 00_scope R8). -/
def respond (ok : Bool) (data : Data) (s : State) : State :=
  { s with rsp := s.rsp ++ [responseWord ok (statusByte s) data] }

/-- A read: performed with the entry in DATA, or a benign refusal where the index selects nothing; no state changes
(44_lookup_and_read R150, 60_exceptions R185). -/
def answerRead (entry : Option Data) (s : State) : State :=
  match entry with
  | some d => respond true d s
  | none => respond false 0 s

/-! ## Faults: entry, refusal, return (spec/60_exceptions.md) -/

/-- `raise cause(w)` (R178): the one way a fault is taken. ERR and ERRCH record the cause and the low byte of the
word, PHASE becomes FAULT, the response carries ERRINFO; nothing else changes. -/
def raise (c : Cause) (w : CmdWord) (s : State) : State :=
  let t := { s with err := some c, errch := fieldLow w, phase := .fault }
  respond false (errInfo t) t

/-- A stateful command or an illegal word in FAULT: refused with the ERRINFO on record, no change (R179, R183). -/
def refuseInFault (s : State) : State := respond false (errInfo s) s

/-- The state of 10_state R34, in this engine and with its channels as they stand: what reset and CLR establish, and
the only return from FAULT (R182; 41_control R102; 70_reset_and_hazards R200, R201). -/
def clearEngine (s : State) : State :=
  { s with
    acc := 0, rem := 0, pad := 0, lead := true, dstk := [], oidx := 0, phase := .idle, err := none, errch := 0 }

/-- The phases in which a command is performed: the rows of the table of R177. -/
def legalPhases : Instr → List Phase
  | .nop => [.idle, .encIn, .encDiv, .encOut, .decIn, .decOut, .fault]
  | .clr => [.idle, .encIn, .encDiv, .encOut, .decIn, .decOut, .fault]
  | .encb _ => [.idle, .encIn]
  | .divs => [.idle, .encIn, .encDiv]
  | .encf => [.idle, .encIn, .encDiv]
  | .popc => [.encOut]
  | .decc _ => [.idle, .decIn]
  | .decf => [.idle, .decIn]
  | .popb => [.decOut]
  | .luta _ => [.idle, .encIn, .encDiv, .encOut, .decIn, .decOut, .fault]
  | .lutv _ => [.idle, .encIn, .encDiv, .encOut, .decIn, .decOut, .fault]
  | .rdsr _ => [.idle, .encIn, .encDiv, .encOut, .decIn, .decOut, .fault]
  | .rdab _ => [.idle, .encIn, .encDiv, .encOut, .decIn, .decOut, .fault]
  | .rdds _ => [.idle, .encIn, .encDiv, .encOut, .decIn, .decOut, .fault]

/-- The front of a stateful command (30_encoding R70 steps 4 to 6): refused in FAULT, EPROTO in a phase where it is
not legal, else performed. -/
def stateful (i : Instr) (perform : State → State) (s : State) : State :=
  if s.phase = .fault then refuseInFault s
  else if s.phase ∈ legalPhases i then perform s
  else raise .eproto (encode i) s

/-- An illegal word (30_encoding R70 step 1; R176, R179): EILL, or refused in FAULT. -/
def takeIllegal (w : CmdWord) (s : State) : State :=
  if s.phase = .fault then refuseInFault s else raise .eill w s

/-! ## The divider (spec/42_encode.md R112, R113) -/

/-- One division step: the quotient to ACC, the remainder to REM and onto the digit stack. -/
def divStep (s : State) : State :=
  { s with acc := s.acc / 58, rem := remDigit s.acc, dstk := s.dstk ++ [remDigit s.acc] }

/-- "while ACC != 0": at most `fuel` division steps. -/
def divLoop : Nat → State → State
  | 0, s => s
  | fuel + 1, s => if s.acc = 0 then s else divLoop fuel (divStep s)

/-! ## The host's channel (spec/30_encoding.md R75, spec/70_reset_and_hazards.md R203, R216) -/

/-- The next thing the host presents, and the state once it is taken; `none` when it presents nothing. -/
def nextEvent (s : State) : Option (HostEvent × State) :=
  match s.host with
  | [] => none
  | e :: rest => some (e, { s with host := rest })

/-- Nothing presented: the engine keeps its state (60_exceptions R195). DEDUCED, log 6. -/
def waitForHost (s : State) : State := s

/-- The host asserts reset: the state of R34, not answered (70_reset_and_hazards R200, R201). Log 5. -/
def takeReset (s : State) : State := clearEngine s

/-- The host presents one more command word, to be taken next. -/
def present (w : CmdWord) (s : State) : State := { s with host := .command w :: s.host }

end Sys2Proof.Machine
end

