-- ==== Sys2Proof/Machine/Control.lean ====
section
/-! DEFINITION. The control commands NOP and CLR (spec/41_control.md). -/

namespace Sys2Proof.Machine

/-- NOP (R101): answers, in every phase, and changes nothing. -/
def execNop (s : State) : Host.Outcome State Fault Refusal :=
  .next (respond true 0 s)

/-- CLR (R102): the reset state, in every phase, and an answer. -/
def execClr (s : State) : Host.Outcome State Fault Refusal :=
  .next (respond true 0 (clearEngine s))

end Sys2Proof.Machine
end

