-- ==== Sys2Proof/Machine/DecodeFamily.lean ====
section
/-! DEFINITION. The decode commands DECC, DECF, POPB (spec/43_decode.md). -/

namespace Sys2Proof.Machine

/-- The pseudocode of DECC c (R131): validity first, then a leading '1' is counted in PAD, any other digit goes into
ACC. -/
def performDecc (c : Byte) (s : State) : State :=
  match digitOf c with
  | none => raise .einvch (encode (.decc c)) s
  | some d =>
    if s.lead ∧ d = 0 then
      if s.pad = 65535 then raise .epad (encode (.decc c)) s
      else respond true (dataOfDigit d) { s with pad := s.pad + 1, phase := .decIn }
    else if s.acc * 58 + d.val ≥ accLimit s.cfg then raise .ecap (encode (.decc c)) s
    else respond true (dataOfDigit d) { s with lead := false, acc := s.acc * 58 + d.val, phase := .decIn }

/-- DECC, decode character (R131). -/
def execDecc (c : Byte) (s : State) : Host.Outcome State Fault Refusal :=
  .next (stateful (.decc c) (performDecc c) s)

/-- The pseudocode of DECF (R132): takes one pad back when every character was '1' and there was one; OIDX is the
byte length of ACC, and DATA. -/
def performDecf (s : State) : State :=
  respond true (BitVec.ofNat 16 (bytelen s.acc))
    { s with
      pad := if s.lead ∧ s.pad ≠ 0 then s.pad - 1 else s.pad
      oidx := BitVec.ofNat 16 (bytelen s.acc)
      phase := .decOut }

/-- DECF, decode finish (R132). -/
def execDecf (s : State) : Host.Outcome State Fault Refusal :=
  .next (stateful .decf performDecf s)

/-- The pseudocode of POPB (R133): PAD times 0x00, then the bytes of ACC below OIDX from the top, then a benign
refusal. -/
def performPopb (s : State) : State :=
  if s.pad ≠ 0 then respond true 0 { s with pad := s.pad - 1 }
  else if s.oidx ≠ 0 then
    respond true (dataOfByte (accByte s.acc (s.oidx - 1).toNat)) { s with oidx := s.oidx - 1 }
  else respond false 0 s

/-- POPB, pop byte (R133). -/
def execPopb (s : State) : Host.Outcome State Fault Refusal :=
  .next (stateful .popb performPopb s)

end Sys2Proof.Machine
end

