-- ==== Sys2Proof/Machine/EncodeFamily.lean ====
section
/-! DEFINITION. The encode commands ENCB, DIVS, ENCF, POPC (spec/42_encode.md). -/

namespace Sys2Proof.Machine

/-- The pseudocode of ENCB b (R111): a leading zero byte is counted in PAD, any other byte is shifted into ACC. -/
def performEncb (b : Byte) (s : State) : State :=
  if s.lead ∧ b = 0 then
    if s.pad = 65535 then raise .epad (encode (.encb b)) s
    else respond true 0 { s with pad := s.pad + 1, phase := .encIn }
  else if s.acc ≥ 256 ^ (s.cfg.accBytes - 1) then raise .ecap (encode (.encb b)) s
  else respond true 0 { s with lead := false, acc := s.acc * 256 + b.toNat, phase := .encIn }

/-- ENCB, encode byte (R111). -/
def execEncb (b : Byte) (s : State) : Host.Outcome State Fault Refusal :=
  .next (stateful (.encb b) (performEncb b) s)

/-- The pseudocode of DIVS (R112): one division step, unconditional but for a full stack. -/
def performDivs (s : State) : State :=
  if s.sp = dstkDepth s.cfg then raise .estk (encode .divs) s
  else respond true (dataOfDigit (remDigit s.acc)) { divStep s with phase := .encDiv }

/-- DIVS, divide step (R112). -/
def execDivs (s : State) : Host.Outcome State Fault Refusal :=
  .next (stateful .divs performDivs s)

/-- The pseudocode of ENCF (R113): exactly ndigits(ACC) division steps; DATA is SP after them. -/
def performEncf (s : State) : State :=
  if s.sp + ndigits s.acc > dstkDepth s.cfg then raise .estk (encode .encf) s
  else
    let t := { divLoop (ndigits s.acc) s with phase := .encOut }
    respond true (BitVec.ofNat 16 t.sp) t

/-- ENCF, encode finish (R113). -/
def execEncf (s : State) : Host.Outcome State Fault Refusal :=
  .next (stateful .encf performEncf s)

/-- The pseudocode of POPC (R114): PAD times the character of digit 0, then the stack from the top, then a benign
refusal. -/
def performPopc (s : State) : State :=
  if s.pad ≠ 0 then respond true (dataOfByte (alpha 0)) { s with pad := s.pad - 1 }
  else
    match s.dstk.getLast? with
    | some d => respond true (dataOfByte (alpha d)) { s with dstk := s.dstk.dropLast }
    | none => respond false 0 s

/-- POPC, pop character (R114). -/
def execPopc (s : State) : Host.Outcome State Fault Refusal :=
  .next (stateful .popc performPopc s)

end Sys2Proof.Machine
end

