-- ==== Sys2Proof/Machine/ReadFamily.lean ====
section
/-! DEFINITION. The lookup and read commands LUTA, LUTV, RDSR, RDAB, RDDS (spec/44_lookup_and_read.md): legal in
every phase, they change no state. -/

namespace Sys2Proof.Machine

/-- LUTA, alphabet lookup (R151). -/
def execLuta (idx : Nat) (s : State) : Host.Outcome State Fault Refusal :=
  .next (answerRead (readAlpha idx) s)

/-- LUTV, validate character (R152): the raw INV entry, always performed. -/
def execLutv (c : Byte) (s : State) : Host.Outcome State Fault Refusal :=
  .next (respond true ((invEntry c).zeroExtend 16) s)

/-- RDSR, read status register (R153). -/
def execRdsr (idx : Nat) (s : State) : Host.Outcome State Fault Refusal :=
  .next (answerRead (readSR s idx) s)

/-- RDAB, read accumulator byte (R154). -/
def execRdab (idx : Nat) (s : State) : Host.Outcome State Fault Refusal :=
  .next (answerRead (readAccByte s idx) s)

/-- RDDS, read digit stack entry (R155). -/
def execRdds (idx : Nat) (s : State) : Host.Outcome State Fault Refusal :=
  .next (answerRead (readDigit s idx) s)

end Sys2Proof.Machine
end

