-- ==== Sys2Proof/Machine/Dispatch.lean ====
section
/-! DEFINITION. One arm per command (spec/30_encoding.md R66, R70 steps 2 to 6). -/

namespace Sys2Proof.Machine

def exec (i : Instr) (s : State) : Host.Outcome State Fault Refusal :=
  match i with
  | .nop => Sys2Proof.Machine.execNop s
  | .clr => Sys2Proof.Machine.execClr s
  | .encb b => Sys2Proof.Machine.execEncb b s
  | .divs => Sys2Proof.Machine.execDivs s
  | .encf => Sys2Proof.Machine.execEncf s
  | .popc => Sys2Proof.Machine.execPopc s
  | .decc c => Sys2Proof.Machine.execDecc c s
  | .decf => Sys2Proof.Machine.execDecf s
  | .popb => Sys2Proof.Machine.execPopb s
  | .luta idx => Sys2Proof.Machine.execLuta idx s
  | .lutv c => Sys2Proof.Machine.execLutv c s
  | .rdsr idx => Sys2Proof.Machine.execRdsr idx s
  | .rdab idx => Sys2Proof.Machine.execRdab idx s
  | .rdds idx => Sys2Proof.Machine.execRdds idx s

end Sys2Proof.Machine
end

