-- ==== Sys2Proof/Machine/Step.lean ====
section
/-! DEFINITION. One step of the machine: the engine takes the next thing the host presents
(spec/30_encoding.md R70, R75; spec/70_reset_and_hazards.md R203). -/

namespace Sys2Proof.Machine

/-- A command word is decoded and performed, an illegal word faults or is refused (R70), a reset puts the engine in
the reset state, and with nothing presented the engine keeps its state. -/
def step (s : State) : Host.Outcome State Fault Refusal :=
  match nextEvent s with
  | none => .next (waitForHost s)
  | some (.reset, t) => .next (takeReset t)
  | some (.command w, t) =>
    match decode w with
    | .ok i => exec i t
    | .error _ => .next (takeIllegal w t)

/-- The host presents the command word whose bits are `w`, before anything else it will present (log 3). -/
def State.withFetchWord (s : State) (nbits w : Nat) : State := present (tableWord nbits w) s

end Sys2Proof.Machine
end

