-- ==== Sys2Proof/Machine/HostProgram.lean ====
section
/-! DEFINITION. The host's side: presenting commands and reading responses (spec/70_reset_and_hazards.md R216), and
the four pseudo-instructions (spec/30_encoding.md R72). The engine never sees a pseudo-instruction. -/

namespace Sys2Proof.Machine

/-- OK, bit 24 of a response word (30_encoding R64). -/
def responseOk (r : RspWord) : Bool := r.getLsbD 24

/-- STATUS, bits [23:16]. -/
def responseStatus (r : RspWord) : Byte := r.extractLsb' 16 8

/-- DATA, bits [15:0]. -/
def responseData (r : RspWord) : Data := r.extractLsb' 0 16

/-- The host presents one word and the engine answers it. -/
def ask (w : CmdWord) (s : State) : State :=
  match step (present w s) with
  | .next t => t
  | .fault _ => s
  | .refused _ => s

/-- The host presents the commands one after another, whatever the answers. -/
def askAll : List Instr → State → State
  | [], s => s
  | i :: is, s => askAll is (ask (encode i) s)

/-- The host presents the commands one after another and stops after the first that answers OK = 0. -/
def askWhileOk : List Instr → State → State
  | [], s => s
  | i :: is, s =>
    let t := ask (encode i) s
    match t.rsp.getLast? with
    | none => t
    | some r => if responseOk r then askWhileOk is t else t

/-- `k` steps of the machine. -/
def runSteps (k : Nat) (s : State) : Host.Outcome State Fault Refusal := Host.Core.run Sys2Proof.core k s

/-- What the host presents when it sends these commands. -/
def presents (is : List Instr) : List HostEvent := is.map fun i => .command (encode i)

/-- `ENCODE h0 ... h(k-1)`: CLR, one ENCB per byte, ENCF (R72). -/
def encodeProgram (data : List Byte) : List Instr := .clr :: data.map .encb ++ [.encf]

/-- `DECODE "c0...c(k-1)"`: CLR, one DECC per character, DECF (R72). `sendDecode` is how the host sends it. -/
def decodeProgram (chars : List Byte) : List Instr := .clr :: chars.map .decc ++ [.decf]

/-- The host sends `DECODE`: CLR, the DECC commands up to the first that answers OK = 0, and DECF in either case. R72
says that the host stops sending DECC there and not whether the closing DECF still goes out: DEDUCED from the trace of
`DECODE "0"` (95_test_vectors S6), which has it, refused. Log 18. -/
def sendDecode (chars : List Byte) (s : State) : State :=
  ask (encode .decf) (askWhileOk (chars.map .decc) (ask (encode .clr) s))

/-- "repeat the pop until a response has OK = 0", at most `fuel` times: the symbols of the responses with OK = 1, in
order, and the state left (R72). -/
def drain (pop : Instr) : Nat → State → List Byte × State
  | 0, s => ([], s)
  | fuel + 1, s =>
    let t := ask (encode pop) s
    match t.rsp.getLast? with
    | none => ([], t)
    | some r =>
      if responseOk r then
        let (rest, u) := drain pop fuel t
        ((responseData r).truncate 8 :: rest, u)
      else ([], t)

/-- `DRAINC` (R72). -/
def drainChars (fuel : Nat) (s : State) : List Byte × State := drain .popc fuel s

/-- `DRAINB` (R72). -/
def drainBytes (fuel : Nat) (s : State) : List Byte × State := drain .popb fuel s

end Sys2Proof.Machine
end

