-- ==== Sys2Proof/Machine/Realisation.lean ====
section
/-! DEFINITION. The byte-serial realisations the spec gives of its arithmetic (spec/42_encode.md R115, R116;
spec/43_decode.md R134): one conforming way to build it, over the A bytes of ACC, least significant first. The
commands themselves use the naturals; the claims say the two agree. -/

namespace Sys2Proof.Machine

/-- The A bytes of an accumulator that holds `n`, byte 0 first (20_memory R43). -/
def accBytesOf (a n : Nat) : List Byte := (List.range a).map (accByte n)

/-- ACC*256 + b as a shift by one place: the new bytes and the byte shifted out at the top (R115). -/
def shiftInByte (acc : List Byte) (b : Byte) : List Byte × Byte :=
  ((b :: acc).dropLast, (b :: acc).getLast (List.cons_ne_nil b acc))

/-- Long division of the byte array by 58, most significant byte first: the quotient's bytes and the remainder
(R116). The higher bytes are the list's tail. -/
def divideBy58 : List Byte → List Byte × Nat
  | [] => ([], 0)
  | b :: higher =>
    let (q, r) := divideBy58 higher
    let t := r * 256 + b.toNat
    (BitVec.ofNat 8 (t / 58) :: q, t % 58)

/-- The byte array times 58 plus a carry, least significant byte first: the new bytes and the carry out at the top
(R134). -/
def mul58Add : Nat → List Byte → List Byte × Nat
  | carry, [] => ([], carry)
  | carry, b :: higher =>
    let t := b.toNat * 58 + carry
    let (bs, out) := mul58Add (t / 256) higher
    (BitVec.ofNat 8 (t % 256) :: bs, out)

end Sys2Proof.Machine
end

