-- ==== Sys2Proof/Machine/Reference.lean ====
section
/-! DEFINITION. The reference functions `enc` and `dec` over unbounded naturals (spec/40_reference_codec.md R80 to
R93): what the command sequences compute, written from their own rules and not from the engine's commands. -/

namespace Sys2Proof.Machine

/-! ## Value functions (R81) -/

/-- The bytes read as one big-endian unsigned number. -/
def val256 : List Byte → Nat
  | [] => 0
  | b :: bs => b.toNat * 256 ^ bs.length + val256 bs

/-- The digits read as one base-58 number, most significant first. -/
def val58 : List Digit → Nat
  | [] => 0
  | d :: ds => d.val * 58 ^ ds.length + val58 ds

/-- Collects the bytes of `n` in front of `tail`, least significant byte first. -/
def bytesLoop : Nat → Nat → List Byte → List Byte
  | 0, _, tail => tail
  | fuel + 1, n, tail => if n = 0 then tail else bytesLoop fuel (n / 256) (BitVec.ofNat 8 (n % 256) :: tail)

/-- `bytes_min(n)`: the minimal big-endian bytes of `n`, none for 0. -/
def bytesMin (n : Nat) : List Byte := bytesLoop n n []

/-- Collects the digits of `n` in front of `tail`, least significant digit first. -/
def digitsLoop : Nat → Nat → List Digit → List Digit
  | 0, _, tail => tail
  | fuel + 1, n, tail => if n = 0 then tail else digitsLoop fuel (n / 58) (remDigit n :: tail)

/-- `digits_min(n)`: the minimal base-58 digits of `n`, most significant first, none for 0. -/
def digitsMin (n : Nat) : List Digit := digitsLoop n n []

/-- The number of leading 0x00 bytes. -/
def lead0 (b : List Byte) : Nat := (b.takeWhile (· == 0)).length

/-- The number of leading characters ALPHA[0]. -/
def lead1 (s : List Byte) : Nat := (s.takeWhile (· == alpha 0)).length

/-! ## Encode (R82) -/

/-- Step 2, the loop: the character of each remainder goes in front. -/
def encLoop : Nat → Nat → List Byte → List Byte
  | 0, _, core => core
  | fuel + 1, n, core => if n = 0 then core else encLoop fuel (n / 58) (alpha (remDigit n) :: core)

/-- `enc(data)`, the source's four steps. -/
def enc (data : List Byte) : List Byte :=
  let n := val256 data
  let core := encLoop n n []
  let pad := lead0 data
  List.replicate pad (alpha 0) ++ core

/-! ## Decode (R84, R85) -/

/-- Step 2, the loop: the value so far, or the first character outside the alphabet. -/
def decLoop : Nat → List Byte → Except Byte Nat
  | n, [] => .ok n
  | n, c :: cs =>
    match digitOf c with
    | none => .error c
    | some d => decLoop (n * 58 + d.val) cs

/-- `dec(s)`, the source's five steps; the error is `InvalidCharacter(c)`. The pad scan leaves out the last
character. -/
def dec (s : List Byte) : Except Byte (List Byte) :=
  match s with
  | [] => .ok []
  | _ :: _ =>
    match decLoop 0 s with
    | .error c => .error c
    | .ok n => .ok (List.replicate (lead1 s.dropLast) 0 ++ bytesMin n)

end Sys2Proof.Machine
end

