-- ==== Sys2Proof/Safety.lean ====
section
/-! DEFINITION. What counts as a safe state (spec/10_state.md R33) and as the end of an operation
(spec/70_reset_and_hazards.md R215), and the words the claims are written in. The words describe responses and
faults by numbers, from the spec's tables, so that a claim does not borrow the bit operations of the commands. -/

namespace Sys2Proof.Machine

/-! ## The invariants of R33, with what makes them inductive -/

/-- The states a run can reach. Items 1 to 7 of R33; R27's "reads 0x0000 exactly when no fault is recorded"
(`errch_zero`); R117's bound (`dividing`). R33 item 3 is stated here for every phase, not three (DEDUCED, log 10); its
second sentence and R33 item 6's second sentence speak of what the host sent before, which no state holds, and are
claims of their own (for item 6: CoreStringHasNoLeadingZeroDigit, DivisionStepsKeepTheNumber; log 19).
REM <= 57 and DSTK[i] <= 57, PHASE never 6 and ERR never 7 hold by type (log 9). -/
structure State.Inv (s : State) : Prop where
  legal : s.cfg.Legal
  acc_lt : s.acc < 256 ^ s.cfg.accBytes
  sp_le : s.dstk.length ≤ dstkDepth s.cfg
  oidx_le : s.oidx.toNat ≤ s.cfg.accBytes
  fault_iff : s.phase = .fault ↔ s.err ≠ none
  errch_zero : s.err = none → s.errch = 0
  lead_acc : s.lead = true → s.acc = 0
  idle : s.phase = .idle →
    s.acc = 0 ∧ s.rem = 0 ∧ s.pad = 0 ∧ s.lead = true ∧ s.dstk = [] ∧ s.oidx = 0 ∧ s.err = none ∧ s.errch = 0
  input : s.phase = .encIn ∨ s.phase = .decIn → s.dstk = [] ∧ s.oidx = 0
  dividing : s.phase = .encDiv → s.acc ≠ 0 → s.dstk.length + ndigits s.acc ≤ dstkDepth s.cfg
  encOut : s.phase = .encOut → s.acc = 0
  decOut : s.phase = .decOut → s.oidx.toNat ≤ bytelen s.acc

/-- The division has ended: in ENC_DIV with nothing left to divide, or in ENC_OUT (R33 item 6, log 19). -/
def divisionEnded (s : State) : Prop := (s.phase = .encDiv ∧ s.acc = 0) ∨ s.phase = .encOut

/-- DSTK[SP-1] != 0 whenever SP > 0 (R33 item 6). -/
def topDigitNotZero (s : State) : Prop := ∀ (below : List Digit) (top : Digit), s.dstk = below ++ [top] → top ≠ 0

/-- What R33 item 6 asks of the host: the word it presents next is no DIVS while Z is 1 and no pop of the output. -/
def noIdleDivsNorPop (s : State) : Prop :=
  ∀ rest, (s.host = .command 0x3000 :: rest → s.acc ≠ 0) ∧ (s.host = .command 0x5000 :: rest → s.phase ≠ .encOut)

/-- The number being encoded, from the digits pushed so far and from what is left to divide. -/
def numberInDivision (s : State) : Nat := s.acc * 58 ^ s.dstk.length + val58 s.dstk.reverse

/-- An operation is over, successfully (R215). -/
def operationDone (s : State) : Prop := (s.phase = .encOut ∨ s.phase = .decOut) ∧ flagORDY s = false

/-- An operation is over, unsuccessfully (R215). -/
def operationFailed (s : State) : Prop := s.phase = .fault

/-! ## Numbers of the spec's tables -/

/-- The value column of R18. -/
def phaseNumber : Phase → Nat
  | .idle => 0
  | .encIn => 1
  | .encDiv => 2
  | .encOut => 3
  | .decIn => 4
  | .decOut => 5
  | .fault => 7

/-- The code column of 60_exceptions R170. -/
def causeNumber : Cause → Nat
  | .einvch => 1
  | .ecap => 2
  | .estk => 3
  | .epad => 4
  | .eproto => 5
  | .eill => 6

/-- ERR as a number (R19). -/
def errNumber : Option Cause → Nat
  | none => 0
  | some c => causeNumber c

/-- STATUS as a number, from the tables of R22 and R24: bit 6 adds nothing. -/
def statusNumber (s : State) : Nat :=
  phaseNumber s.phase + (if s.acc = 0 then 8 else 0) + (if s.lead = true then 16 else 0) +
    (if (s.phase = .encOut ∧ (0 < s.pad.toNat ∨ 0 < s.dstk.length)) ∨
        (s.phase = .decOut ∧ (0 < s.pad.toNat ∨ 0 < s.oidx.toNat)) then 32 else 0) +
    (if s.err ≠ none then 128 else 0)

/-- ERRINFO as a number (R27). -/
def errInfoNumber (s : State) : Nat := errNumber s.err * 256 + s.errch.toNat

/-- `t` with the one response of a command added: DATA in [15:0], STATUS of `t` in [23:16], OK at bit 24, the bits
above zero (30_encoding R64). -/
def answerWith (ok : Bool) (data : Nat) (t : State) : State :=
  { t with
    rsp := t.rsp ++ [BitVec.ofNat 32 (data + statusNumber t * 65536 + (if ok = true then 16777216 else 0))] }

/-- Fault entry by a word whose low byte is `low` (60_exceptions R178). -/
def withFault (c : Cause) (low : Byte) (s : State) : State :=
  answerWith false (causeNumber c * 256 + low.toNat) { s with err := some c, errch := low, phase := .fault }

/-- A refusal in FAULT: ERRINFO as recorded, no change (60_exceptions R179). -/
def withRefusal (s : State) : State := answerWith false (errInfoNumber s) s

/-- A benign refusal: OK = 0, DATA = 0, no change (60_exceptions R185). -/
def withBenignRefusal (s : State) : State := answerWith false 0 s

/-- What the host reads of a response: OK, FLT (STATUS[7]) and DATA (30_encoding R65). -/
def responseView (r : RspWord) : Bool × Bool × Nat :=
  (r.toNat / 2 ^ 24 % 2 == 1, r.toNat / 2 ^ 23 % 2 == 1, r.toNat % 65536)

/-- The responses given between two states. -/
def newResponses (s t : State) : List RspWord := t.rsp.drop s.rsp.length

/-- The ALPHA table in the closed form of 10_state R31. -/
def alphaCode (i : Nat) : Nat :=
  if i ≤ 8 then 0x31 + i
  else if i ≤ 16 then 0x41 + (i - 9)
  else if i ≤ 21 then 0x4A + (i - 17)
  else if i ≤ 32 then 0x50 + (i - 22)
  else if i ≤ 43 then 0x61 + (i - 33)
  else 0x6D + (i - 44)

/-! ## The table of 60_exceptions R177 -/

/-- An entry of the table: performed, EPROTO, or refused. -/
inductive PhaseEntry where
  | ok
  | proto
  | refused
deriving DecidableEq, Repr

/-- A row, its entries in the order of the table's columns. -/
def tableRow (idle encIn encDiv encOut decIn decOut fault : PhaseEntry) : Phase → PhaseEntry
  | .idle => idle
  | .encIn => encIn
  | .encDiv => encDiv
  | .encOut => encOut
  | .decIn => decIn
  | .decOut => decOut
  | .fault => fault

/-- The table, row by row. -/
def phaseTable : Instr → Phase → PhaseEntry
  | .encb _ => tableRow .ok .ok .proto .proto .proto .proto .refused
  | .divs => tableRow .ok .ok .ok .proto .proto .proto .refused
  | .encf => tableRow .ok .ok .ok .proto .proto .proto .refused
  | .popc => tableRow .proto .proto .proto .ok .proto .proto .refused
  | .decc _ => tableRow .ok .proto .proto .proto .ok .proto .refused
  | .decf => tableRow .ok .proto .proto .proto .ok .proto .refused
  | .popb => tableRow .proto .proto .proto .proto .proto .ok .refused
  | .clr => tableRow .ok .ok .ok .ok .ok .ok .ok
  | .nop => tableRow .ok .ok .ok .ok .ok .ok .ok
  | .luta _ => tableRow .ok .ok .ok .ok .ok .ok .ok
  | .lutv _ => tableRow .ok .ok .ok .ok .ok .ok .ok
  | .rdsr _ => tableRow .ok .ok .ok .ok .ok .ok .ok
  | .rdab _ => tableRow .ok .ok .ok .ok .ok .ok .ok
  | .rdds _ => tableRow .ok .ok .ok .ok .ok .ok .ok

/-- The last column: the phase after a performed command. -/
def phaseAfter : Instr → Phase → Phase
  | .encb _, _ => .encIn
  | .divs, _ => .encDiv
  | .encf, _ => .encOut
  | .popc, _ => .encOut
  | .decc _, _ => .decIn
  | .decf, _ => .decOut
  | .popb, _ => .decOut
  | .clr, _ => .idle
  | .nop, p => p
  | .luta _, p => p
  | .lutv _, p => p
  | .rdsr _, p => p
  | .rdab _, p => p
  | .rdds _, p => p

/-- The read-only commands (60_exceptions R177, R179). -/
def isReadOnly : Instr → Bool
  | .nop => true
  | .clr => false
  | .encb _ => false
  | .divs => false
  | .encf => false
  | .popc => false
  | .decc _ => false
  | .decf => false
  | .popb => false
  | .luta _ => true
  | .lutv _ => true
  | .rdsr _ => true
  | .rdab _ => true
  | .rdds _ => true

/-- Bits [7:0] of a command's word: its symbol, or 0x00 for a command with no operand; an index's low byte
(30_encoding R61, 60_exceptions R170). -/
def lowByteOf : Instr → Byte
  | .nop => 0
  | .clr => 0
  | .encb b => b
  | .divs => 0
  | .encf => 0
  | .popc => 0
  | .decc c => c
  | .decf => 0
  | .popb => 0
  | .luta idx => BitVec.ofNat 8 idx
  | .lutv c => c
  | .rdsr idx => BitVec.ofNat 8 idx
  | .rdab idx => BitVec.ofNat 8 idx
  | .rdds idx => BitVec.ofNat 8 idx

/-- The engine in the state of 10_state R34, with what the host will present and the responses given before. -/
def freshEngine (c : Config) (events : List HostEvent) (before : List RspWord) : State :=
  { State.resetOf c with host := events, rsp := before }

/-- Every component of the engine at its value of 10_state R34; DSTK has no valid entry, since SP = 0. -/
def atReset (s : State) : Prop :=
  s.acc = 0 ∧ s.rem = 0 ∧ s.pad = 0 ∧ s.lead = true ∧ s.dstk.length = 0 ∧ s.oidx = 0 ∧ s.phase = .idle ∧
    s.err = none ∧ s.errch = 0

end Sys2Proof.Machine
end

