-- ==== Sys2Proof/Certificates/Slice0/Obligations.lean ====
section
/-! DEFINITION. The claims about the engine, one per rule or group of rules of the spec. `answerWith`, `withFault`,
`withRefusal` and `withBenignRefusal` (Safety.lean) give a whole next state, so an equation with one of them states
the result, the response and the frame at once: what the record update does not name is unchanged. -/

open Sys2Proof Sys2Proof.Machine

/-! ## Encoding (30_encoding) -/

/-- Encoding a well-formed command and decoding the word gives the command back, with its operand (R60 to R62). -/
def Obligations.DecodeOfEncodeIsTheCommand : Prop :=
  ∀ i : Instr, i.wf = true → decode (encode i) = .ok i

/-- Every word that decodes is the word of the command it decodes to, and that command is well formed: no two words
mean the same command (R66, R68; 92_eei_decisions D15). -/
def Obligations.EncodeOfDecodeIsTheWord : Prop :=
  ∀ (w : CmdWord) (i : Instr), decode w = .ok i → i.wf = true ∧ encode i = w

/-- The illegal words are exactly those of R67: OP 0xE or 0xF, a format Z opcode with ARG not 0, a format B opcode
with ARG[11:8] not 0. -/
def Obligations.IllegalWordsAreThoseOfTheRule : Prop :=
  ∀ w : CmdWord, (∃ e, decode w = .error e) ↔
    14 ≤ w.toNat / 4096 ∨
    (w.toNat / 4096 ∈ [0x0, 0x1, 0x3, 0x4, 0x5, 0x7, 0x8] ∧ w.toNat % 4096 ≠ 0) ∨
    (w.toNat / 4096 ∈ [0x2, 0x6, 0xA] ∧ w.toNat % 4096 / 256 ≠ 0)

/-- A word selects a row of the opcode table, `w & mask = match`, exactly when it decodes to a command of that row
(R66). -/
def Obligations.WordSelectsRowItDecodesTo : Prop :=
  ∀ (w : CmdWord) (r : OpcodeRow), r ∈ opcodeTable →
    (w &&& r.mask = r.pattern ↔ ∃ i, decode w = .ok i ∧ rowOf i = r)

/-- One word of each command, written out from R66 (sanity). -/
def Obligations.WrittenWordsDecode : Prop :=
  decode 0x0000 = .ok .nop ∧ decode 0x1000 = .ok .clr ∧ decode 0x2061 = .ok (.encb 0x61) ∧
  decode 0x3000 = .ok .divs ∧ decode 0x4000 = .ok .encf ∧ decode 0x5000 = .ok .popc ∧
  decode 0x6067 = .ok (.decc 0x67) ∧ decode 0x7000 = .ok .decf ∧ decode 0x8000 = .ok .popb ∧
  decode 0x9027 = .ok (.luta 39) ∧ decode 0xA07A = .ok (.lutv 0x7A) ∧ decode 0xB009 = .ok (.rdsr 9) ∧
  decode 0xCFFF = .ok (.rdab 4095) ∧ decode 0xD002 = .ok (.rdds 2)

/-! ## The step (30_encoding R70, R75; 70_reset_and_hazards) -/

/-- When the host presents a word that decodes to `i`, the step takes the word and is `exec i` (R70, R75). -/
def Obligations.StepRunsTheDecodedCommand : Prop :=
  ∀ (s : State) (w : CmdWord) (rest : List HostEvent) (i : Instr),
    s.host = .command w :: rest → decode w = .ok i → step s = exec i { s with host := rest }

/-- An illegal word raises EILL in every phase but FAULT, and is refused in FAULT (R67, R176). -/
def Obligations.IllegalWordRaisesEill : Prop :=
  ∀ (s : State) (w : CmdWord) (rest : List HostEvent) (e : IllegalWord),
    s.host = .command w :: rest → decode w = .error e →
    (s.phase ≠ .fault → step s = .next (withFault .eill (BitVec.ofNat 8 w.toNat) { s with host := rest })) ∧
    (s.phase = .fault → step s = .next (withRefusal { s with host := rest }))

/-- The reset state (R34): every component has its value of R34 in the state after reset of every engine, after a reset
from any state and after a CLR from any state; a NOP right after reset answers 0x01180000, so STATUS 0x18 (log 20). -/
def Obligations.ResetAndClrLeaveTheResetValues : Prop :=
  (∀ c : Config, c.Legal → (State.resetOf c).cfg = c ∧ atReset (State.resetOf c)) ∧
  (∀ (s : State) (rest : List HostEvent), s.host = .reset :: rest →
    ∃ t, step s = .next t ∧ t.cfg = s.cfg ∧ atReset t ∧
      ∃ u, exec .nop t = .next u ∧ u.rsp = t.rsp ++ [0x01180000]) ∧
  (∀ s : State, ∃ t, exec .clr s = .next t ∧ t.cfg = s.cfg ∧ atReset t)

/-- An engine that is given nothing keeps its state (60_exceptions R195); every step from every state goes on, with
a next state (30_encoding R70, 70_reset_and_hazards R217). -/
def Obligations.EveryStepHasANextState : Prop :=
  (∀ s : State, s.host = [] → step s = .next s) ∧ (∀ s : State, ∃ t, step s = .next t)

/-! ## Control commands (41_control) -/

/-- NOP, in every phase: OK = 1, DATA = 0, nothing changes; a word 0x0nnn with nnn not zero is not NOP but illegal
(R101). -/
def Obligations.NopAnswersAndChangesNothing : Prop :=
  encode .nop = 0x0000 ∧
  (∀ w : CmdWord, 0 < w.toNat → w.toNat < 4096 → ∃ e, decode w = .error e) ∧
  ∀ s : State, exec .nop s = .next (answerWith true 0 s)

/-- CLR, in every phase: the reset state exactly, and the response 0x01180000 (R102). -/
def Obligations.ClrGivesTheResetState : Prop :=
  encode .clr = 0x1000 ∧
  ∀ s : State, exec .clr s = .next (freshEngine s.cfg s.host (s.rsp ++ [0x01180000]))

/-! ## Encode commands (42_encode) -/

/-- ENCB b (R111, R172, R174): in IDLE and ENC_IN a leading zero byte is counted, or raises EPAD when PAD is 65535;
any other byte enters ACC, or raises ECAP when the new value needs more than A bytes. Elsewhere EPROTO, in FAULT a
refusal. -/
def Obligations.EncbCountsOrShiftsInAByte : Prop :=
  ∀ b : Byte, encode (.encb b) = BitVec.ofNat 16 (0x2000 + b.toNat) ∧
  ∀ s : State, s.cfg.Legal →
  ((s.phase = .idle ∨ s.phase = .encIn) →
    (s.lead = true → b = 0 → s.pad.toNat < 65535 →
      exec (.encb b) s = .next (answerWith true 0 { s with pad := s.pad + 1, phase := .encIn })) ∧
    (s.lead = true → b = 0 → s.pad.toNat = 65535 → exec (.encb b) s = .next (withFault .epad b s)) ∧
    (¬ (s.lead = true ∧ b = 0) → s.acc * 256 + b.toNat < 256 ^ s.cfg.accBytes →
      exec (.encb b) s =
        .next (answerWith true 0 { s with lead := false, acc := s.acc * 256 + b.toNat, phase := .encIn })) ∧
    (¬ (s.lead = true ∧ b = 0) → 256 ^ s.cfg.accBytes ≤ s.acc * 256 + b.toNat →
      exec (.encb b) s = .next (withFault .ecap b s))) ∧
  (s.phase ∈ [.encDiv, .encOut, .decIn, .decOut] → exec (.encb b) s = .next (withFault .eproto b s)) ∧
  (s.phase = .fault → exec (.encb b) s = .next (withRefusal s))

/-- DIVS (R112, R173, R88): in IDLE, ENC_IN and ENC_DIV one division step, ACC = 58*q + r, also when ACC is 0; with
the stack full ESTK. Elsewhere EPROTO, in FAULT a refusal. -/
def Obligations.DivsDividesOnceBy58 : Prop :=
  encode .divs = 0x3000 ∧
  ∀ s : State,
  ((s.phase = .idle ∨ s.phase = .encIn ∨ s.phase = .encDiv) →
    (∀ (q : Nat) (r : Digit), s.dstk.length ≠ dstkDepth s.cfg → s.acc = 58 * q + r.val →
      exec .divs s =
        .next (answerWith true r.val { s with acc := q, rem := r, dstk := s.dstk ++ [r], phase := .encDiv })) ∧
    (s.dstk.length = dstkDepth s.cfg → exec .divs s = .next (withFault .estk 0 s))) ∧
  (s.phase ∈ [.encOut, .decIn, .decOut] → exec .divs s = .next (withFault .eproto 0 s)) ∧
  (s.phase = .fault → exec .divs s = .next (withRefusal s))

/-- ENCF (R113): in IDLE, ENC_IN and ENC_DIV the loop to its end: ACC is 0, the digits of ACC are on the stack, the
least significant pushed first, REM is the last remainder (unchanged if there was none), DATA is SP. The stack test
raises ESTK. Elsewhere EPROTO, in FAULT a refusal. -/
def Obligations.EncfRunsTheDivisionLoop : Prop :=
  encode .encf = 0x4000 ∧
  ∀ s : State, s.cfg.Legal →
  ((s.phase = .idle ∨ s.phase = .encIn ∨ s.phase = .encDiv) →
    (s.dstk.length + ndigits s.acc ≤ dstkDepth s.cfg →
      exec .encf s =
        .next (answerWith true (s.dstk.length + ndigits s.acc)
          { s with
            acc := 0, rem := (digitsMin s.acc).headD s.rem, dstk := s.dstk ++ (digitsMin s.acc).reverse,
            phase := .encOut })) ∧
    (dstkDepth s.cfg < s.dstk.length + ndigits s.acc → exec .encf s = .next (withFault .estk 0 s))) ∧
  (s.phase ∈ [.encOut, .decIn, .decOut] → exec .encf s = .next (withFault .eproto 0 s)) ∧
  (s.phase = .fault → exec .encf s = .next (withRefusal s))

/-- POPC (R114): in ENC_OUT a pad character '1' while PAD is not 0, then the character of the top digit, then a
benign refusal. Elsewhere EPROTO, in FAULT a refusal. -/
def Obligations.PopcDeliversPadThenStack : Prop :=
  encode .popc = 0x5000 ∧
  ∀ s : State,
  (s.phase = .encOut →
    (0 < s.pad.toNat → exec .popc s = .next (answerWith true 0x31 { s with pad := s.pad - 1 })) ∧
    (∀ (below : List Digit) (top : Digit), s.pad.toNat = 0 → s.dstk = below ++ [top] →
      exec .popc s = .next (answerWith true (alphaCode top.val) { s with dstk := below })) ∧
    (s.pad.toNat = 0 → s.dstk = [] → exec .popc s = .next (withBenignRefusal s))) ∧
  (s.phase ∈ [.idle, .encIn, .encDiv, .decIn, .decOut] → exec .popc s = .next (withFault .eproto 0 s)) ∧
  (s.phase = .fault → exec .popc s = .next (withRefusal s))

/-! ## Decode commands (43_decode) -/

/-- DECC c (R131, R171, R172, R174, R180): in IDLE and DEC_IN a character outside the alphabet raises EINVCH, whatever
else would apply; a leading '1' is counted, or raises EPAD when PAD is 65535; any other digit enters ACC, or raises
ECAP when the new value needs more than A bytes; DATA is the digit. Elsewhere EPROTO, in FAULT a refusal. -/
def Obligations.DeccValidatesThenCountsOrAdds : Prop :=
  ∀ c : Byte, encode (.decc c) = BitVec.ofNat 16 (0x6000 + c.toNat) ∧
  ∀ s : State,
  ((s.phase = .idle ∨ s.phase = .decIn) →
    ((∀ i < 58, alphaCode i ≠ c.toNat) → exec (.decc c) s = .next (withFault .einvch c s)) ∧
    (alphaCode 0 = c.toNat → s.lead = true → s.pad.toNat < 65535 →
      exec (.decc c) s = .next (answerWith true 0 { s with pad := s.pad + 1, phase := .decIn })) ∧
    (alphaCode 0 = c.toNat → s.lead = true → s.pad.toNat = 65535 →
      exec (.decc c) s = .next (withFault .epad c s)) ∧
    (∀ d < 58, alphaCode d = c.toNat → ¬ (s.lead = true ∧ d = 0) → s.acc * 58 + d < 256 ^ s.cfg.accBytes →
      exec (.decc c) s =
        .next (answerWith true d { s with lead := false, acc := s.acc * 58 + d, phase := .decIn })) ∧
    (∀ d < 58, alphaCode d = c.toNat → ¬ (s.lead = true ∧ d = 0) → 256 ^ s.cfg.accBytes ≤ s.acc * 58 + d →
      exec (.decc c) s = .next (withFault .ecap c s))) ∧
  (s.phase ∈ [.encIn, .encDiv, .encOut, .decOut] → exec (.decc c) s = .next (withFault .eproto c s)) ∧
  (s.phase = .fault → exec (.decc c) s = .next (withRefusal s))

/-- DECF (R132): in IDLE and DEC_IN one pad is taken back when LEAD is still 1 and PAD is not 0, else none; OIDX and
DATA are bytelen(ACC). Elsewhere EPROTO, in FAULT a refusal. (ACC < 256^A is R33's invariant.) -/
def Obligations.DecfAppliesThePadRule : Prop :=
  encode .decf = 0x7000 ∧
  ∀ s : State, s.cfg.Legal → s.acc < 256 ^ s.cfg.accBytes →
  ((s.phase = .idle ∨ s.phase = .decIn) →
    ((s.lead = true ∧ 0 < s.pad.toNat) →
      exec .decf s =
        .next (answerWith true (bytelen s.acc)
          { s with pad := s.pad - 1, oidx := BitVec.ofNat 16 (bytelen s.acc), phase := .decOut })) ∧
    (¬ (s.lead = true ∧ 0 < s.pad.toNat) →
      exec .decf s =
        .next (answerWith true (bytelen s.acc)
          { s with oidx := BitVec.ofNat 16 (bytelen s.acc), phase := .decOut }))) ∧
  (s.phase ∈ [.encIn, .encDiv, .encOut, .decOut] → exec .decf s = .next (withFault .eproto 0 s)) ∧
  (s.phase = .fault → exec .decf s = .next (withRefusal s))

/-- POPB (R133): in DEC_OUT a pad byte 0x00 while PAD is not 0, then byte OIDX-1 of ACC, then a benign refusal; ACC
does not change. Elsewhere EPROTO, in FAULT a refusal. -/
def Obligations.PopbDeliversPadThenBytes : Prop :=
  encode .popb = 0x8000 ∧
  ∀ s : State,
  (s.phase = .decOut →
    (0 < s.pad.toNat → exec .popb s = .next (answerWith true 0 { s with pad := s.pad - 1 })) ∧
    (s.pad.toNat = 0 → 0 < s.oidx.toNat →
      exec .popb s =
        .next (answerWith true (s.acc / 256 ^ (s.oidx.toNat - 1) % 256) { s with oidx := s.oidx - 1 })) ∧
    (s.pad.toNat = 0 → s.oidx.toNat = 0 → exec .popb s = .next (withBenignRefusal s))) ∧
  (s.phase ∈ [.idle, .encIn, .encDiv, .encOut, .decIn] → exec .popb s = .next (withFault .eproto 0 s)) ∧
  (s.phase = .fault → exec .popb s = .next (withRefusal s))

/-! ## Lookup and read commands (44_lookup_and_read) -/

/-- LUTA i, in every phase: the character of digit i for i <= 57, else a benign refusal (R151, R31). -/
def Obligations.LutaReadsTheAlphabet : Prop :=
  ∀ i : Nat, (i < 4096 → encode (.luta i) = BitVec.ofNat 16 (0x9000 + i)) ∧
  ∀ s : State,
    (i ≤ 57 → exec (.luta i) s = .next (answerWith true (alphaCode i) s)) ∧
    (58 ≤ i → exec (.luta i) s = .next (withBenignRefusal s))

/-- LUTV c, in every phase: the digit of a character of the alphabet, 0x40 for every other code, never a fault
(R152, R32). -/
def Obligations.LutvReadsTheValidationTable : Prop :=
  ∀ c : Byte, encode (.lutv c) = BitVec.ofNat 16 (0xA000 + c.toNat) ∧
  ∀ s : State,
    (∀ d < 58, alphaCode d = c.toNat → exec (.lutv c) s = .next (answerWith true d s)) ∧
    ((∀ d < 58, alphaCode d ≠ c.toNat) → exec (.lutv c) s = .next (answerWith true 0x40 s))

/-- RDSR n, in every phase: SR0 to SR9 as R23 to R30 define them, a benign refusal from 10 on (R153). The invariant
keeps the counters inside 16 bits. -/
def Obligations.RdsrReadsTheStatusRegisters : Prop :=
  ∀ n : Nat, (n < 4096 → encode (.rdsr n) = BitVec.ofNat 16 (0xB000 + n)) ∧
  ∀ s : State, s.Inv →
    exec (.rdsr 0) s = .next (answerWith true (statusNumber s) s) ∧
    exec (.rdsr 1) s = .next (answerWith true s.pad.toNat s) ∧
    exec (.rdsr 2) s = .next (answerWith true s.dstk.length s) ∧
    exec (.rdsr 3) s = .next (answerWith true s.rem.val s) ∧
    exec (.rdsr 4) s = .next (answerWith true (errInfoNumber s) s) ∧
    exec (.rdsr 5) s = .next (answerWith true s.oidx.toNat s) ∧
    exec (.rdsr 6) s = .next (answerWith true (bytelen s.acc) s) ∧
    exec (.rdsr 7) s = .next (answerWith true s.cfg.accBytes s) ∧
    exec (.rdsr 8) s = .next (answerWith true (dstkDepth s.cfg) s) ∧
    exec (.rdsr 9) s = .next (answerWith true 0x0B58 s) ∧
    (10 ≤ n → exec (.rdsr n) s = .next (withBenignRefusal s))

/-- RDAB i, in every phase: byte i of ACC for i < A, byte 0 least significant, else a benign refusal (R154). -/
def Obligations.RdabReadsAnAccumulatorByte : Prop :=
  ∀ i : Nat, (i < 4096 → encode (.rdab i) = BitVec.ofNat 16 (0xC000 + i)) ∧
  ∀ s : State,
    (i < s.cfg.accBytes → exec (.rdab i) s = .next (answerWith true (s.acc / 256 ^ i % 256) s)) ∧
    (s.cfg.accBytes ≤ i → exec (.rdab i) s = .next (withBenignRefusal s))

/-- RDDS i, in every phase and for every index a word holds: entry i of the stack, counted from the first digit pushed,
else a benign refusal; SP does not move (R155, 20_memory R57). -/
def Obligations.RddsReadsAStackEntry : Prop :=
  ∀ i : Nat, i < 4096 → encode (.rdds i) = BitVec.ofNat 16 (0xD000 + i) ∧
  ∀ s : State,
    (∀ (below : List Digit) (d : Digit) (above : List Digit),
      s.dstk = below ++ d :: above → below.length = i →
      exec (.rdds i) s = .next (answerWith true d.val s)) ∧
    (s.dstk.length ≤ i → exec (.rdds i) s = .next (withBenignRefusal s))

/-! ## Whole-machine rules on faults, responses and reads -/

/-- The table of R177: a `P` entry raises EPROTO, a `ref` entry is refused, an `ok` entry is performed, after which
the phase is the table's, or it raises a data fault of its own (EINVCH, ECAP, ESTK, EPAD); an illegal word raises
EILL, or is refused in FAULT. -/
def Obligations.PhaseTableDecidesTheOutcome : Prop :=
  (∀ (i : Instr) (s : State), ∃ t, exec i s = .next t ∧
    (phaseTable i s.phase = .proto → t = withFault .eproto (lowByteOf i) s) ∧
    (phaseTable i s.phase = .refused → t = withRefusal s) ∧
    (phaseTable i s.phase = .ok →
      t.phase = phaseAfter i s.phase ∨
      (s.phase ≠ .fault ∧ ∃ c ∈ [Cause.einvch, .ecap, .estk, .epad], t = withFault c (lowByteOf i) s))) ∧
  (∀ (s : State) (w : CmdWord) (rest : List HostEvent) (e : IllegalWord),
    s.host = .command w :: rest → decode w = .error e →
    step s = .next
      (if s.phase = .fault then withRefusal { s with host := rest }
        else withFault .eill (BitVec.ofNat 8 w.toNat) { s with host := rest }))

/-- Faults are precise (R178): a command word that takes the engine from another phase into FAULT does exactly the
fault entry: ERR, ERRCH and PHASE are written, the response carries ERRINFO, nothing else changes. -/
def Obligations.FaultEntryIsPrecise : Prop :=
  ∀ (s t : State) (w : CmdWord) (rest : List HostEvent),
    s.host = .command w :: rest → s.phase ≠ .fault → step s = .next t → t.phase = .fault →
    ∃ c : Cause, t = withFault c (BitVec.ofNat 8 w.toNat) { s with host := rest }

/-- The first fault sticks (R183, R179): in FAULT no word but CLR changes any component of the engine, and the word
gets its one response. -/
def Obligations.FirstFaultSticks : Prop :=
  ∀ (s : State) (w : CmdWord) (rest : List HostEvent),
    s.host = .command w :: rest → s.phase = .fault → w ≠ 0x1000 →
    ∃ r, step s = .next { s with host := rest, rsp := s.rsp ++ [r] }

/-- Only CLR and reset leave FAULT, and both give the whole reset state (R182). -/
def Obligations.OnlyClrAndResetLeaveFault : Prop :=
  ∀ s t : State, s.phase = .fault → step s = .next t → t.phase ≠ .fault →
    ∃ rest, (s.host = .reset :: rest ∧ t = freshEngine s.cfg rest s.rsp) ∨
      (s.host = .command 0x1000 :: rest ∧ t = freshEngine s.cfg rest (s.rsp ++ [0x01180000]))

/-- One response per command word, in order, with the STATUS of the state after it and zero reserved bits (R64, R75);
the engine takes one word a step, and reset is not answered. The two channels are the model's own fields (logs 3,
4). -/
def Obligations.OneResponsePerCommandWord : Prop :=
  ∀ s : State,
    (∀ (w : CmdWord) (rest : List HostEvent), s.host = .command w :: rest →
      ∃ t r, step s = .next t ∧ t.host = rest ∧ t.rsp = s.rsp ++ [r] ∧
        r.toNat < 2 ^ 25 ∧ r.toNat / 2 ^ 16 % 2 ^ 8 = statusNumber t) ∧
    (∀ rest : List HostEvent, s.host = .reset :: rest → ∃ t, step s = .next t ∧ t.host = rest ∧ t.rsp = s.rsp)

/-- The four kinds of response (R65): performed (FLT = 1 only for a read-only command in FAULT), new fault, refused in
FAULT, benign refusal; the last three are told apart by OK, FLT and DATA and change what the rule says. -/
def Obligations.FourKindsOfResponse : Prop :=
  ∀ (s : State) (w : CmdWord) (rest : List HostEvent), s.Inv → s.host = .command w :: rest →
    ∃ t r, step s = .next t ∧ t.rsp = s.rsp ++ [r] ∧
      (((responseView r).1 = true ∧
          ((responseView r).2.1 = true → s.phase = .fault ∧ ∃ i, decode w = .ok i ∧ isReadOnly i = true)) ∨
        ((responseView r).1 = false ∧ s.phase ≠ .fault ∧ (responseView r).2.1 = true ∧
          ∃ c, t = withFault c (BitVec.ofNat 8 w.toNat) { s with host := rest }) ∨
        ((responseView r).1 = false ∧ s.phase = .fault ∧ (responseView r).2.1 = true ∧
          t = withRefusal { s with host := rest }) ∨
        ((responseView r).1 = false ∧ t = withBenignRefusal { s with host := rest } ∧
          ((responseView r).2.1 = true ↔ s.phase = .fault)))

/-- Reads change nothing (R53, R150): a read-only command leaves every component as it was, in every phase, and is
never a fault; only its response is added. -/
def Obligations.ReadOnlyCommandsChangeNothing : Prop :=
  ∀ (i : Instr) (s : State), isReadOnly i = true →
    ∃ r, exec i s = .next { s with rsp := s.rsp ++ [r] }

/-- ORDY tells the host whether the next pop delivers (R22): in the output phases, the pop of that phase answers
OK = 1 exactly when ORDY is 1. -/
def Obligations.OrdyTellsWhetherThePopDelivers : Prop :=
  ∀ s : State,
    (s.phase = .encOut → ∃ t r, exec .popc s = .next t ∧ t.rsp = s.rsp ++ [r] ∧
      ((responseView r).1 = true ↔ statusNumber s / 32 % 2 = 1)) ∧
    (s.phase = .decOut → ∃ t r, exec .popb s = .next t ∧ t.rsp = s.rsp ++ [r] ∧
      ((responseView r).1 = true ↔ statusNumber s / 32 % 2 = 1))

/-! ## Invariants (10_state R33; 42_encode R117) -/

/-- The invariants hold after reset, in every engine. R33 is the spec's own inference ("The following hold in every
state reachable from reset", [derived]); the form of it here is log 10's. -/
def Obligations.InvariantHoldsAtReset : Prop :=
  ∀ c : Config, c.Legal → (State.resetOf c).Inv

/-- Every step keeps the invariants, from every state that has them (R33, the spec's own inference; log 10). -/
def Obligations.StepKeepsTheInvariant : Prop :=
  ∀ s t : State, s.Inv → step s = .next t → t.Inv

/-- The digit stack never overflows in an encode that issues DIVS only while Z is 0 (R117, which the spec derives from
R112, R113 and R6): from a state with the invariants in IDLE, ENC_IN or ENC_DIV, ENCF never raises ESTK, and neither
does DIVS while ACC is not 0. -/
def Obligations.StackNeverOverflowsWhileZIsZero : Prop :=
  ∀ s t : State, s.Inv → (s.phase = .idle ∨ s.phase = .encIn ∨ s.phase = .encDiv) →
    (exec .encf s = .next t → t.phase = .encOut ∧ t.err = none) ∧
    (s.acc ≠ 0 → exec .divs s = .next t → t.phase = .encDiv ∧ t.err = none)

/-- The core string has no leading zero digit (R33 item 6): a DIVS or ENCF that divides a non-zero ACC down to 0
leaves a non-zero digit on top. R33 is the spec's own inference, and its sentence covers the middle of a division too,
where it fails: log 19 and DivisionStepsKeepTheNumber. -/
def Obligations.TopDigitIsNotZeroWhenTheDivisionEnds : Prop :=
  ∀ s t : State, s.Inv → (s.phase = .idle ∨ s.phase = .encIn ∨ s.phase = .encDiv) → s.acc ≠ 0 →
    (exec .divs s = .next t ∨ exec .encf s = .next t) → t.acc = 0 →
    ∃ (below : List Digit) (top : Digit), t.dstk = below ++ [top] ∧ top ≠ 0

/-! ## History does not matter (10_state R36; 70_reset_and_hazards R201) -/

/-- The responses after a CLR depend on what the host sends after it and on A alone (R36, which the spec derives from
R34 and R16): two engines with the same
A, whatever they did before, given CLR and then the same events, give the same responses. -/
def Obligations.ResponsesAfterClrForgetThePast : Prop :=
  ∀ (s s' : State) (events : List HostEvent) (k : Nat), s.cfg = s'.cfg →
    s.host = .command 0x1000 :: events → s'.host = .command 0x1000 :: events →
    ∃ t t', runSteps k s = .next t ∧ runSteps k s' = .next t' ∧ newResponses s t = newResponses s' t'

/-- Every command sequence gets the same responses after a reset as after a CLR (R201); CLR itself is answered, reset
is not. The spec derives R201 from R34 and R102. -/
def Obligations.ResetAndClrGiveTheSameResponses : Prop :=
  ∀ (s s' : State) (events : List HostEvent) (k : Nat), s.cfg = s'.cfg →
    s.host = .reset :: events → s'.host = .command 0x1000 :: events →
    ∃ t t', runSteps (k + 1) s = .next t ∧ runSteps (k + 1) s' = .next t' ∧
      newResponses s' t' = 0x01180000 :: newResponses s t

/-! ## ENCF is the host's loop (42_encode R118) -/

/-- Issuing DIVS k times while Z is 0 and then ENCF leaves the same engine as ENCF alone (R118, which the spec derives
from R112 and R113). -/
def Obligations.DivsThenEncfIsEncf : Prop :=
  ∀ (s : State) (k : Nat), s.Inv → (s.phase = .idle ∨ s.phase = .encIn ∨ s.phase = .encDiv) →
    k ≤ ndigits s.acc →
    ∃ t u, runSteps (k + 1) { s with host := presents (List.replicate k .divs ++ [.encf]) } = .next t ∧
      exec .encf { s with host := [] } = .next u ∧ { t with rsp := u.rsp } = u

/-! ## The engine computes enc and dec (40_reference_codec R94 to R96) -/

/-- Encode correspondence (R94), for an input that fits: from the reset state, the ENCB commands of `data`, ENCF and
m POPC: after ENCF, PAD, SP, ACC and PHASE are as the rule says; the pops deliver `enc data` and then benign
refusals; once it is delivered the operation is done (R215). The spec derives R94 from R111, R113, R114 and R82. -/
def Obligations.EncodeCommandsComputeEnc : Prop :=
  ∀ (c : Config) (before : List RspWord) (data : List Byte) (m : Nat), c.Legal →
    data.length - lead0 data ≤ c.accBytes → lead0 data ≤ 65535 →
    ∃ t u,
      runSteps (data.length + 1)
        (freshEngine c (presents (data.map .encb ++ .encf :: List.replicate m .popc)) before) = .next t ∧
      t.pad.toNat = lead0 data ∧ t.dstk.length = ndigits (val256 data) ∧ t.acc = 0 ∧ t.phase = .encOut ∧
      runSteps m t = .next u ∧
      (u.rsp.drop before.length).map responseView =
        List.replicate data.length (true, false, 0) ++ (true, false, ndigits (val256 data)) ::
          ((enc data).map (fun ch : Byte => (true, false, ch.toNat)) ++ List.replicate m (false, false, 0)).take m ∧
      ((enc data).length ≤ m → operationDone u)

/-- Encode of an input that does not fit (R94, second half): with more than A significant bytes and at most 65535
leading zero bytes, the ENCB of byte data[j+A] faults ECAP; with more than 65535 leading zero bytes, the ENCB of
byte data[65535] faults EPAD; everything after it is refused, so no character is delivered. The spec derives R94
from R111. -/
def Obligations.EncodeThatDoesNotFitFaults : Prop :=
  ∀ (c : Config) (before : List RspWord) (data : List Byte) (m : Nat), c.Legal →
    (∀ b : Byte, lead0 data ≤ 65535 → data[lead0 data + c.accBytes]? = some b →
      ∃ u,
        runSteps (data.length + 1 + m)
          (freshEngine c (presents (data.map .encb ++ .encf :: List.replicate m .popc)) before) = .next u ∧
        operationFailed u ∧ u.err = some .ecap ∧ u.errch = b ∧
        (u.rsp.drop before.length).map responseView =
          List.replicate (lead0 data + c.accBytes) (true, false, 0) ++
          List.replicate (data.length + 1 + m - (lead0 data + c.accBytes)) (false, true, 0x200 + b.toNat)) ∧
    (65535 < lead0 data →
      ∃ u,
        runSteps (data.length + 1 + m)
          (freshEngine c (presents (data.map .encb ++ .encf :: List.replicate m .popc)) before) = .next u ∧
        operationFailed u ∧ u.err = some .epad ∧ u.errch = 0 ∧
        (u.rsp.drop before.length).map responseView =
          List.replicate 65535 (true, false, 0) ++
          List.replicate (data.length + 1 + m - 65535) (false, true, 0x400))

/-- Decode correspondence (R95), for a valid string that fits: from the reset state, the DECC commands of `chars`,
DECF and m POPB: after DECF, PAD, OIDX and PHASE are as the rule says; the DECC responses carry the digits; the pops
deliver `dec chars` and then benign refusals. The spec derives R95 from R131, R132, R133, R135 and R85. -/
def Obligations.DecodeCommandsComputeDec : Prop :=
  ∀ (c : Config) (before : List RspWord) (chars : List Byte) (ds : List Digit) (m : Nat), c.Legal →
    chars.map digitOf = ds.map some → val58 ds < 256 ^ c.accBytes → lead1 chars ≤ 65535 →
    ∃ t u bytes,
      runSteps (chars.length + 1)
        (freshEngine c (presents (chars.map .decc ++ .decf :: List.replicate m .popb)) before) = .next t ∧
      t.pad.toNat = min (lead1 chars) (chars.length - 1) ∧ t.oidx.toNat = bytelen (val58 ds) ∧
      t.phase = .decOut ∧ dec chars = .ok bytes ∧
      runSteps m t = .next u ∧
      (u.rsp.drop before.length).map responseView =
        ds.map (fun d : Digit => (true, false, d.val)) ++ (true, false, bytelen (val58 ds)) ::
          (bytes.map (fun b : Byte => (true, false, b.toNat)) ++ List.replicate m (false, false, 0)).take m ∧
      (bytes.length ≤ m → operationDone u)

/-- Decode failure correspondence (R96): when `ch` is the first invalid character and the prefix raises no capacity
fault, its DECC answers 0x0100 + ch with FLT, and every later DECC, DECF and POPB is refused with the same DATA;
`dec` fails with that character. The spec derives R96 from R131, R171, R178 and R179. -/
def Obligations.DecodeFailsAtFirstInvalidCharacter : Prop :=
  ∀ (c : Config) (before : List RspWord) (good : List Byte) (ds : List Digit) (ch : Byte) (later : List Byte)
    (m : Nat), c.Legal →
    good.map digitOf = ds.map some → digitOf ch = none → val58 ds < 256 ^ c.accBytes → lead1 good ≤ 65535 →
    dec (good ++ ch :: later) = .error ch ∧
    ∃ u,
      runSteps (good.length + 1 + later.length + 1 + m)
        (freshEngine c (presents ((good ++ ch :: later).map .decc ++ .decf :: List.replicate m .popb)) before) =
          .next u ∧
      operationFailed u ∧ u.err = some .einvch ∧ u.errch = ch ∧
      (u.rsp.drop before.length).map responseView =
        ds.map (fun d : Digit => (true, false, d.val)) ++
          List.replicate (later.length + 2 + m) (false, true, 0x100 + ch.toNat)

/-- The running pad count is the source's scan (R135): after the DECC commands of a valid string LEAD says whether
every character was '1' and PAD counts the leading ones; after DECF, PAD is the count without the last character.
The spec derives R135 from R131, R132 and R85. -/
def Obligations.DecodePadCountIsTheScan : Prop :=
  ∀ (c : Config) (before : List RspWord) (chars : List Byte) (ds : List Digit), c.Legal →
    chars.map digitOf = ds.map some → val58 ds < 256 ^ c.accBytes → lead1 chars ≤ 65535 →
    ∃ t u, runSteps chars.length (freshEngine c (presents (chars.map .decc ++ [.decf])) before) = .next t ∧
      t.pad.toNat = lead1 chars ∧ (t.lead = true ↔ lead1 chars = chars.length) ∧
      step t = .next u ∧ u.pad.toNat = lead1 chars.dropLast

/-- `ENCODE` then `DRAINC` is the source's encode, `DECODE` then `DRAINB` its decode, from every state of the engine
(30_encoding R72); when every DECC answers OK = 1 the host sends the whole expansion of `DECODE`; a string with an
invalid character leaves its fault on record and drains to nothing (R96). The bound of the drains (one more than the
result, or any larger), and that the closing DECF is sent after a DECC that failed too, are the model's reading of R72,
log 18. -/
def Obligations.PseudoInstructionsAreEncAndDec : Prop :=
  ∀ (s : State) (data chars bytes later : List Byte) (ch : Byte) (ds : List Digit) (extra : Nat), s.cfg.Legal →
    (data.length - lead0 data ≤ s.cfg.accBytes → lead0 data ≤ 65535 →
      (drainChars ((enc data).length + 1 + extra) (askAll (encodeProgram data) s)).1 = enc data) ∧
    (chars.map digitOf = ds.map some → val58 ds < 256 ^ s.cfg.accBytes → lead1 chars ≤ 65535 →
      dec chars = .ok bytes →
      sendDecode chars s = askAll (decodeProgram chars) s ∧
      (drainBytes (bytes.length + 1 + extra) (sendDecode chars s)).1 = bytes) ∧
    (chars.map digitOf = ds.map some → val58 ds < 256 ^ s.cfg.accBytes → lead1 chars ≤ 65535 →
      digitOf ch = none →
      (sendDecode (chars ++ ch :: later) s).err = some .einvch ∧ (sendDecode (chars ++ ch :: later) s).errch = ch ∧
      (drainBytes (1 + extra) (sendDecode (chars ++ ch :: later) s)).1 = [])

/-! ## The laws of enc and dec (40_reference_codec) -/

/-- `bytes_min` and `digits_min` (R81), and the lengths of R8: the value is kept, the first element is not zero, and the
length is the least k with n < 256^k (58^k). -/
def Obligations.MinimalSequencesAndLengths : Prop :=
  ∀ n : Nat,
    val256 (bytesMin n) = n ∧ (bytesMin n).head? ≠ some 0 ∧ (bytesMin n).length = bytelen n ∧
    n < 256 ^ bytelen n ∧ (∀ k, n < 256 ^ k → bytelen n ≤ k) ∧
    val58 (digitsMin n) = n ∧ (digitsMin n).head? ≠ some 0 ∧ (digitsMin n).length = ndigits n ∧
    n < 58 ^ ndigits n ∧ (∀ k, n < 58 ^ k → ndigits n ≤ k)

/-- The closed form of enc (R82) and its edge cases (R83). The spec derives the closed form from the loop. -/
def Obligations.EncIsPadThenDigits : Prop :=
  (∀ data : List Byte,
    enc data = List.replicate (lead0 data) (alpha 0) ++ (digitsMin (val256 data)).map alpha) ∧
  (∀ k : Nat, enc (List.replicate k 0) = List.replicate k (alpha 0))

/-- The closed form of dec on a valid string (R85) and its edge cases (R86). The spec derives the closed form from
the five steps. -/
def Obligations.DecIsPadThenBytes : Prop :=
  (∀ (chars : List Byte) (ds : List Digit), chars.map digitOf = ds.map some →
    dec chars = .ok (List.replicate (min (lead1 chars) (chars.length - 1)) 0 ++ bytesMin (val58 ds))) ∧
  (∀ k : Nat, dec (List.replicate (k + 1) (alpha 0)) = .ok (List.replicate k 0))

/-- The round trip as it really holds (R89): it gives the input back exactly when the input is empty or has a byte
that is not zero; a non-empty all-zero input loses one byte. The spec derives R89 from R82, R85 and R86. -/
def Obligations.DecOfEncIsTheInputButForAllZero : Prop :=
  (∀ b : List Byte, dec (enc b) = .ok b ↔ b = [] ∨ ∃ x ∈ b, x ≠ 0) ∧
  (∀ k : Nat, dec (enc (List.replicate (k + 1) 0)) = .ok (List.replicate k 0))

/-- The other direction (R90): a valid string that is empty or not all '1' is the encoding of its own decoding; an
all-'1' string loses one character. The spec derives R90 from R82 and R85. -/
def Obligations.EncOfDecIsTheStringButForAllOnes : Prop :=
  (∀ (chars : List Byte) (ds : List Digit), chars.map digitOf = ds.map some →
    (chars = [] ∨ ∃ x ∈ chars, x ≠ alpha 0) → ∃ b, dec chars = .ok b ∧ enc b = chars) ∧
  (∀ k : Nat, ∃ b, dec (List.replicate (k + 1) (alpha 0)) = .ok b ∧ enc b = List.replicate k (alpha 0))

/-- Lengths, and the leading '1' characters of an encoding and zero bytes of a decoding (R91; the spec derives it from
R82 and R85). -/
def Obligations.LengthsOfEncAndDec : Prop :=
  (∀ b : List Byte, (enc b).length = lead0 b + ndigits (val256 b) ∧ lead1 (enc b) = lead0 b) ∧
  (∀ (chars : List Byte) (ds : List Digit) (b : List Byte), chars ≠ [] → chars.map digitOf = ds.map some →
    dec chars = .ok b → b.length = min (lead1 chars) (chars.length - 1) + bytelen (val58 ds)) ∧
  (∀ (chars : List Byte) (ds : List Digit) (b : List Byte), chars.map digitOf = ds.map some → dec chars = .ok b →
    (chars = [] ∨ ∃ x ∈ chars, x ≠ alpha 0) → lead0 b = lead1 chars)

/-- Alphabet completeness (R92): enc gives characters of the alphabet only, dec accepts no other, enc is injective
and dec is not. The spec derives that enc is injective. -/
def Obligations.OnlyAlphabetCharactersAppear : Prop :=
  (∀ (b : List Byte) (ch : Byte), ch ∈ enc b → ∃ d : Digit, alpha d = ch) ∧
  (∀ s b : List Byte, dec s = .ok b → ∀ ch ∈ s, ∃ d : Digit, alpha d = ch) ∧
  (∀ b b' : List Byte, enc b = enc b' → b = b') ∧
  (dec [alpha 0] = .ok [] ∧ dec [] = .ok [])

/-- The alphabet has 58 distinct characters, in the closed form of R31, and INV is its inverse (R32). -/
def Obligations.AlphabetAndItsInverse : Prop :=
  (∀ d : Digit, (alpha d).toNat = alphaCode d.val) ∧
  (∀ d e : Digit, alpha d = alpha e → d = e) ∧
  (∀ (c : Byte) (d : Digit), alpha d = c ↔ invEntry c = BitVec.ofNat 7 d.val) ∧
  (∀ c : Byte, (∀ d : Digit, alpha d ≠ c) → invEntry c = 0x40)

/-! ## The parameters and the byte-serial realisations -/

/-- S is the least natural with 58^S >= 256^A, and with A in its range it lies in 2 to 5594 (00_scope R6, 10_state
R29). -/
def Obligations.StackDepthIsTheLeastThatHoldsTheDigits : Prop :=
  ∀ c : Config, c.Legal →
    256 ^ c.accBytes ≤ 58 ^ dstkDepth c ∧ (∀ k, 256 ^ c.accBytes ≤ 58 ^ k → dstkDepth c ≤ k) ∧
    2 ≤ dstkDepth c ∧ dstkDepth c ≤ 5594

/-- The shift by one byte is ACC*256 + b, and the byte shifted out is zero exactly when it fits (R115). -/
def Obligations.ByteShiftIsTimes256PlusByte : Prop :=
  ∀ (a n : Nat) (b : Byte), 1 ≤ a → n < 256 ^ a →
    ((shiftInByte (accBytesOf a n) b).2 = 0 ↔ n * 256 + b.toNat < 256 ^ a) ∧
    (shiftInByte (accBytesOf a n) b).1 = accBytesOf a (n * 256 + b.toNat)

/-- The byte-serial long division gives the quotient and the remainder of ACC by 58 (R116). The spec derives the
result by induction. -/
def Obligations.ByteSerialDivisionIsDivisionBy58 : Prop :=
  ∀ a n : Nat, n < 256 ^ a → divideBy58 (accBytesOf a n) = (accBytesOf a (n / 58), n % 58)

/-- The byte-serial multiply-add gives ACC*58 + d, and its carry out is not zero exactly when that does not fit
(R134). The spec derives the result by induction. -/
def Obligations.ByteSerialMultiplyAddIsTimes58PlusDigit : Prop :=
  ∀ (a n : Nat) (d : Digit), n < 256 ^ a →
    (mul58Add d.val (accBytesOf a n)).1 = accBytesOf a (n * 58 + d.val) ∧
    ((mul58Add d.val (accBytesOf a n)).2 ≠ 0 ↔ 256 ^ a ≤ n * 58 + d.val)

/-- The word of a command is OP << 12 | operand (R71): the opcode of its row, and its byte or index. -/
def Obligations.CommandWordIsOpcodeAndOperand : Prop :=
  ∀ i : Instr, i.wf = true →
    (encode i).toNat = (rowOf i).pattern.toNat +
      (match i with
        | .nop => 0 | .clr => 0 | .encb b => b.toNat | .divs => 0 | .encf => 0 | .popc => 0
        | .decc c => c.toNat | .decf => 0 | .popb => 0 | .luta idx => idx | .lutv c => c.toNat
        | .rdsr idx => idx | .rdab idx => idx | .rdds idx => idx) ∧
    fieldLow (encode i) = lowByteOf i

/-! ## The core string (10_state R33 item 6) -/

/-- R33 item 6, second sentence, wherever the division has ended: a step from a state with the invariants that is
neither a DIVS while Z is 1 nor a pop of the output keeps it, so on every run from reset with none of these DSTK[SP-1]
is not 0 whenever SP > 0 in ENC_OUT, and in ENC_DIV when Z is 1. R33 is the spec's own inference from R112; for ENC_DIV with Z = 0, where R112 makes
the sentence false, see DivisionStepsKeepTheNumber (log 19). -/
def Obligations.CoreStringHasNoLeadingZeroDigit : Prop :=
  (∀ s t : State, s.Inv → (divisionEnded s → topDigitNotZero s) → noIdleDivsNorPop s → step s = .next t →
    divisionEnded t → topDigitNotZero t) ∧
  (∀ (c : Config) (events : List HostEvent) (before : List RspWord) (k : Nat) (t : State), c.Legal →
    (∀ j u, j < k → runSteps j (freshEngine c events before) = .next u → noIdleDivsNorPop u) →
    runSteps k (freshEngine c events before) = .next t → divisionEnded t → topDigitNotZero t)

/-- In the phases of the division a DIVS that is performed, and ENCF, keep the number that the digits pushed so far and
the rest in ACC stand for, and ENCF leaves no rest. While ACC is not 0 a DIVS is performed, and the digit it leaves on
top is 0 exactly when 58 divides ACC: in the middle of a division R112 allows it, against the words of R33 item 6, which
the spec derives from R112 (log 19). -/
def Obligations.DivisionStepsKeepTheNumber : Prop :=
  ∀ s t : State, s.Inv → (s.phase = .idle ∨ s.phase = .encIn ∨ s.phase = .encDiv) →
    (exec .divs s = .next t → t.phase = .encDiv → numberInDivision t = numberInDivision s) ∧
    (exec .encf s = .next t → t.acc = 0 ∧ val58 t.dstk.reverse = numberInDivision s) ∧
    (s.acc ≠ 0 → exec .divs s = .next t →
      t.phase = .encDiv ∧ ((∃ below : List Digit, t.dstk = below ++ [0]) ↔ s.acc % 58 = 0))
end

