-- ==== Sys2Proof/Laws/Decode.lean ====
section
/-! SUPPORT. The fields of the words the encoder builds, and a word from its fields (spec/30_encoding.md R60, R61). -/

namespace Sys2Proof

/-- Concatenation of bit fields as arithmetic. -/
theorem append_toNat {m n : Nat} (x : BitVec m) (y : BitVec n) : (x ++ y).toNat = x.toNat * 2 ^ n + y.toNat := by
  rw [BitVec.toNat_append, ← Nat.shiftLeft_add_eq_or_of_lt y.isLt, Nat.shiftLeft_eq]

theorem fieldOp_toNat (w : CmdWord) : (fieldOp w).toNat = w.toNat / 4096 := by
  have := w.isLt
  simp [fieldOp, Nat.shiftRight_eq_div_pow]
  omega

theorem fieldArg_toNat (w : CmdWord) : (fieldArg w).toNat = w.toNat % 4096 := by
  simp [fieldArg]

theorem fieldUpper_toNat (w : CmdWord) : (fieldUpper w).toNat = w.toNat % 4096 / 256 := by
  simp [fieldUpper, Nat.shiftRight_eq_div_pow]
  omega

theorem fieldLow_toNat (w : CmdWord) : (fieldLow w).toNat = w.toNat % 256 := by
  simp [fieldLow]

theorem encodeZ_toNat (op : BitVec 4) : (encodeZ op).toNat = op.toNat * 4096 := by
  refine (append_toNat op 0#12).trans ?_
  simp

theorem encodeB_toNat (op : BitVec 4) (b : Byte) : (encodeB op b).toNat = op.toNat * 4096 + b.toNat := by
  simp only [encodeB, append_toNat]
  simp
  omega

theorem encodeX_toNat (op : BitVec 4) (idx : Nat) : (encodeX op idx).toNat = op.toNat * 4096 + idx % 4096 := by
  refine (append_toNat op (BitVec.ofNat 12 idx)).trans ?_
  simp

/-- The mask of format X keeps the opcode. -/
theorem and_opcodeMask_toNat (w : CmdWord) : (w &&& 0xF000#16).toNat = w.toNat / 4096 * 4096 := by
  have : w &&& 0xF000#16 = (w >>> 12) <<< 12 := by
    ext k hk
    interval_cases k <;> simp
  have := w.isLt
  simp [*, Nat.shiftRight_eq_div_pow, Nat.shiftLeft_eq]
  omega

/-- The mask of format B keeps the opcode and ARG[11:8]. -/
theorem and_upperMask_toNat (w : CmdWord) : (w &&& 0xFF00#16).toNat = w.toNat / 256 * 256 := by
  have : w &&& 0xFF00#16 = (w >>> 8) <<< 8 := by
    ext k hk
    interval_cases k <;> simp
  have := w.isLt
  simp [*, Nat.shiftRight_eq_div_pow, Nat.shiftLeft_eq]
  omega

end Sys2Proof
end

