-- ==== Sys2Proof/Laws/Numbers.lean ====
section
/-! SUPPORT. The laws of the number functions: lengths (spec/00_scope.md R8), values and minimal sequences
(spec/40_reference_codec.md R81, R88). -/

namespace Sys2Proof.Machine

/-! ## Lengths in a base -/

/-- Enough fuel is enough: the count is the least exponent. -/
theorem numLenUpTo_le_iff {b : Nat} (hb : 2 ≤ b) :
    ∀ (fuel n k : Nat), n ≤ fuel → (numLenUpTo b fuel n ≤ k ↔ n < b ^ k) := by
  intro fuel
  induction fuel with
  | zero =>
    intro n k hn
    obtain rfl : n = 0 := by omega
    simp [numLenUpTo, Nat.pow_pos (show 0 < b by omega)]
  | succ fuel ih =>
    intro n k hn
    by_cases h0 : n = 0
    · subst h0
      simp [numLenUpTo, Nat.pow_pos (show 0 < b by omega)]
    · have hlt : n / b < n := Nat.div_lt_self (by omega) hb
      simp only [numLenUpTo, h0, if_false]
      cases k with
      | zero => simp; omega
      | succ k =>
        rw [Nat.succ_le_succ_iff, ih (n / b) k (by omega), Nat.pow_succ, Nat.div_lt_iff_lt_mul (by omega)]

theorem numLen_le_iff {b : Nat} (hb : 2 ≤ b) (n k : Nat) : numLen b n ≤ k ↔ n < b ^ k :=
  numLenUpTo_le_iff hb n n k (Nat.le_refl n)

theorem bytelen_le_iff (n k : Nat) : bytelen n ≤ k ↔ n < 256 ^ k := numLen_le_iff (by decide) n k

theorem ndigits_le_iff (n k : Nat) : ndigits n ≤ k ↔ n < 58 ^ k := numLen_le_iff (by decide) n k

theorem lt_pow_bytelen (n : Nat) : n < 256 ^ bytelen n := (bytelen_le_iff n _).1 (Nat.le_refl _)

theorem lt_pow_ndigits (n : Nat) : n < 58 ^ ndigits n := (ndigits_le_iff n _).1 (Nat.le_refl _)

@[simp] theorem bytelen_zero : bytelen 0 = 0 := rfl

@[simp] theorem ndigits_zero : ndigits 0 = 0 := rfl

/-- One digit fewer after a division. -/
theorem ndigits_step {n : Nat} (h : n ≠ 0) : ndigits n = ndigits (n / 58) + 1 := by
  refine Nat.le_antisymm ((ndigits_le_iff _ _).2 ?_) ?_
  · have := lt_pow_ndigits (n / 58)
    rw [Nat.pow_succ]
    exact (Nat.div_lt_iff_lt_mul (by decide)).1 this
  · have hpos : ndigits n ≠ 0 := fun h0 => by
      have := lt_pow_ndigits n
      rw [h0] at this
      omega
    obtain ⟨k, hk⟩ := Nat.exists_eq_succ_of_ne_zero hpos
    rw [hk]
    refine Nat.succ_le_succ ((ndigits_le_iff _ _).2 ((Nat.div_lt_iff_lt_mul (by decide)).2 ?_))
    rw [← Nat.pow_succ]
    exact (ndigits_le_iff n _).1 (Nat.le_of_eq hk)

/-- One byte fewer after a division by 256. -/
theorem bytelen_step {n : Nat} (h : n ≠ 0) : bytelen n = bytelen (n / 256) + 1 := by
  refine Nat.le_antisymm ((bytelen_le_iff _ _).2 ?_) ?_
  · have := lt_pow_bytelen (n / 256)
    rw [Nat.pow_succ]
    exact (Nat.div_lt_iff_lt_mul (by decide)).1 this
  · have hpos : bytelen n ≠ 0 := fun h0 => by
      have := lt_pow_bytelen n
      rw [h0] at this
      omega
    obtain ⟨k, hk⟩ := Nat.exists_eq_succ_of_ne_zero hpos
    rw [hk]
    refine Nat.succ_le_succ ((bytelen_le_iff _ _).2 ((Nat.div_lt_iff_lt_mul (by decide)).2 ?_))
    rw [← Nat.pow_succ]
    exact (bytelen_le_iff n _).1 (Nat.le_of_eq hk)

theorem ndigits_ne_zero {n : Nat} (h : n ≠ 0) : ndigits n ≠ 0 := by
  rw [ndigits_step h]
  exact Nat.succ_ne_zero _

theorem bytelen_ne_zero {n : Nat} (h : n ≠ 0) : bytelen n ≠ 0 := by
  rw [bytelen_step h]
  exact Nat.succ_ne_zero _

/-- What S is chosen for (00_scope R6, 42_encode R117): the digits of a number that fits in A bytes fit the stack. -/
theorem ndigits_le_dstkDepth {c : Config} {n : Nat} (h : n < 256 ^ c.accBytes) : ndigits n ≤ dstkDepth c := by
  have := lt_pow_ndigits (accLimit c - 1)
  rw [ndigits_le_iff]
  unfold dstkDepth accLimit at *
  omega

theorem dstkDepth_le_iff (c : Config) (k : Nat) : dstkDepth c ≤ k ↔ 256 ^ c.accBytes ≤ 58 ^ k := by
  have : 0 < 256 ^ c.accBytes := Nat.pow_pos (by decide)
  unfold dstkDepth accLimit
  rw [ndigits_le_iff]
  omega

/-- The greatest depth, of A = 4096 (00_scope R6). -/
theorem dstkDepth_le {c : Config} (h : c.Legal) : dstkDepth c ≤ 5594 := by
  rw [dstkDepth_le_iff]
  exact Nat.le_trans (Nat.pow_le_pow_right (by decide) h.2) (by decide +kernel)

/-! ## Bytes -/

theorem accByte_toNat (n i : Nat) : (accByte n i).toNat = n / 256 ^ i % 256 := by
  simp [accByte]

theorem dataOfByte_toNat (b : Byte) : (dataOfByte b).toNat = b.toNat := by
  have := b.isLt
  simp [dataOfByte]
  omega

theorem dataOfDigit_toNat (d : Digit) : (dataOfDigit d).toNat = d.val := by
  have := d.isLt
  simp [dataOfDigit]
  omega

@[simp] theorem remDigit_val (n : Nat) : (remDigit n).val = n % 58 := rfl

/-! ## Values of sequences (R81) -/

theorem val256_append (xs ys : List Byte) : val256 (xs ++ ys) = val256 xs * 256 ^ ys.length + val256 ys := by
  induction xs with
  | nil => simp [val256]
  | cons x xs ih => simp [val256, ih, Nat.pow_add]; ring

theorem val58_append (xs ys : List Digit) : val58 (xs ++ ys) = val58 xs * 58 ^ ys.length + val58 ys := by
  induction xs with
  | nil => simp [val58]
  | cons x xs ih => simp [val58, ih, Nat.pow_add]; ring

/-- The next byte, one place lower than all before it (20_memory R47). -/
theorem val256_concat (xs : List Byte) (b : Byte) : val256 (xs ++ [b]) = val256 xs * 256 + b.toNat := by
  simp [val256_append, val256]

theorem val58_concat (xs : List Digit) (d : Digit) : val58 (xs ++ [d]) = val58 xs * 58 + d.val := by
  simp [val58_append, val58]

theorem val256_lt (xs : List Byte) : val256 xs < 256 ^ xs.length := by
  induction xs with
  | nil => simp [val256]
  | cons x xs ih =>
    have := x.isLt
    have : x.toNat * 256 ^ xs.length ≤ 255 * 256 ^ xs.length := Nat.mul_le_mul_right _ (by omega)
    simp [val256, Nat.pow_succ]
    omega

theorem val58_lt (xs : List Digit) : val58 xs < 58 ^ xs.length := by
  induction xs with
  | nil => simp [val58]
  | cons x xs ih =>
    have := x.isLt
    have : x.val * 58 ^ xs.length ≤ 57 * 58 ^ xs.length := Nat.mul_le_mul_right _ (by omega)
    simp [val58, Nat.pow_succ]
    omega

/-! ## The minimal sequences (R81) -/

theorem digitsLoop_append : ∀ (fuel n : Nat) (t u : List Digit), digitsLoop fuel n (t ++ u) = digitsLoop fuel n t ++ u := by
  intro fuel
  induction fuel with
  | zero => intro n t u; rfl
  | succ fuel ih =>
    intro n t u
    by_cases h : n = 0
    · simp [digitsLoop, h]
    · simpa [digitsLoop, h] using ih (n / 58) (remDigit n :: t) u

/-- Enough fuel is enough. -/
theorem digitsLoop_fuel : ∀ (fuel fuel' n : Nat) (t : List Digit), n ≤ fuel → n ≤ fuel' →
    digitsLoop fuel n t = digitsLoop fuel' n t := by
  intro fuel
  induction fuel with
  | zero =>
    intro fuel' n t h h'
    obtain rfl : n = 0 := by omega
    cases fuel' <;> simp [digitsLoop]
  | succ fuel ih =>
    intro fuel' n t h h'
    by_cases h0 : n = 0
    · subst h0
      cases fuel' <;> simp [digitsLoop]
    · obtain ⟨f, rfl⟩ := Nat.exists_eq_succ_of_ne_zero (show fuel' ≠ 0 by omega)
      have : n / 58 < n := Nat.div_lt_self (by omega) (by decide)
      simp only [digitsLoop, h0, if_false]
      exact ih f (n / 58) _ (by omega) (by omega)

@[simp] theorem digitsMin_zero : digitsMin 0 = [] := rfl

/-- The least significant element goes last. -/
theorem digitsMin_step {n : Nat} (h : n ≠ 0) : digitsMin n = digitsMin (n / 58) ++ [remDigit n] := by
  obtain ⟨f, rfl⟩ := Nat.exists_eq_succ_of_ne_zero h
  have hlt : (f + 1) / 58 < f + 1 := Nat.div_lt_self (by omega) (by decide)
  have hrun : digitsLoop (f + 1) (f + 1) [] = digitsLoop f ((f + 1) / 58) [remDigit (f + 1)] := by
    simp [digitsLoop]
  exact hrun.trans (((digitsLoop_fuel f _ _ _ (by omega) (Nat.le_refl _)).trans (digitsLoop_append _ _ [] _)))

theorem bytesLoop_append : ∀ (fuel n : Nat) (t u : List Byte), bytesLoop fuel n (t ++ u) = bytesLoop fuel n t ++ u := by
  intro fuel
  induction fuel with
  | zero => intro n t u; rfl
  | succ fuel ih =>
    intro n t u
    by_cases h : n = 0
    · simp [bytesLoop, h]
    · simpa [bytesLoop, h] using ih (n / 256) (BitVec.ofNat 8 (n % 256) :: t) u

/-- Enough fuel is enough. -/
theorem bytesLoop_fuel : ∀ (fuel fuel' n : Nat) (t : List Byte), n ≤ fuel → n ≤ fuel' →
    bytesLoop fuel n t = bytesLoop fuel' n t := by
  intro fuel
  induction fuel with
  | zero =>
    intro fuel' n t h h'
    obtain rfl : n = 0 := by omega
    cases fuel' <;> simp [bytesLoop]
  | succ fuel ih =>
    intro fuel' n t h h'
    by_cases h0 : n = 0
    · subst h0
      cases fuel' <;> simp [bytesLoop]
    · obtain ⟨f, rfl⟩ := Nat.exists_eq_succ_of_ne_zero (show fuel' ≠ 0 by omega)
      have : n / 256 < n := Nat.div_lt_self (by omega) (by decide)
      simp only [bytesLoop, h0, if_false]
      exact ih f (n / 256) _ (by omega) (by omega)

@[simp] theorem bytesMin_zero : bytesMin 0 = [] := rfl

/-- The least significant element goes last. -/
theorem bytesMin_step {n : Nat} (h : n ≠ 0) : bytesMin n = bytesMin (n / 256) ++ [BitVec.ofNat 8 (n % 256)] := by
  obtain ⟨f, rfl⟩ := Nat.exists_eq_succ_of_ne_zero h
  have hlt : (f + 1) / 256 < f + 1 := Nat.div_lt_self (by omega) (by decide)
  have hrun : bytesLoop (f + 1) (f + 1) [] = bytesLoop f ((f + 1) / 256) [BitVec.ofNat 8 ((f + 1) % 256)] := by
    simp [bytesLoop]
  exact hrun.trans (((bytesLoop_fuel f _ _ _ (by omega) (Nat.le_refl _)).trans (bytesLoop_append _ _ [] _)))

theorem digitsMin_length (n : Nat) : (digitsMin n).length = ndigits n := by
  induction n using Nat.strong_induction_on with
  | _ n ih =>
    by_cases h : n = 0
    · subst h; rfl
    · rw [digitsMin_step h, ndigits_step h, List.length_append,
        ih _ (Nat.div_lt_self (Nat.pos_of_ne_zero h) (by decide))]
      rfl

theorem bytesMin_length (n : Nat) : (bytesMin n).length = bytelen n := by
  induction n using Nat.strong_induction_on with
  | _ n ih =>
    by_cases h : n = 0
    · subst h; rfl
    · rw [bytesMin_step h, bytelen_step h, List.length_append,
        ih _ (Nat.div_lt_self (Nat.pos_of_ne_zero h) (by decide))]
      rfl

end Sys2Proof.Machine
end

