-- ==== Sys2Proof/Laws/Operands.lean ====
section
/-! SUPPORT. What the tables and the index spaces answer (spec/10_state.md R31, R32; spec/20_memory.md R41 to R45). -/

namespace Sys2Proof.Machine

/-- A character found in the alphabet is the one at the digit found. -/
theorem alpha_of_digitOf {c : Byte} {d : Digit} (h : digitOf c = some d) : alpha d = c := by
  simpa using List.find?_some h

theorem digitOf_eq_none_iff (c : Byte) : digitOf c = none ↔ ∀ d : Digit, alpha d ≠ c := by
  simp [digitOf]

theorem alphabet_distinct : (List.finRange 58).Pairwise (fun d e => alpha d ≠ alpha e) := by
  decide +kernel

theorem alpha_injective {d e : Digit} (h : alpha d = alpha e) : d = e := by
  have apart : ∀ {a b : Digit}, a < b → alpha a ≠ alpha b := fun {a b} hab => by
    simpa using List.pairwise_iff_getElem.1 alphabet_distinct a.val b.val (by simp) (by simp) hab
  rcases lt_trichotomy d e with hlt | heq | hgt
  · exact absurd h (apart hlt)
  · exact heq
  · exact absurd h.symm (apart hgt)

theorem digitOf_alpha (d : Digit) : digitOf (alpha d) = some d := by
  cases h : digitOf (alpha d) with
  | some e => rw [alpha_injective (alpha_of_digitOf h)]
  | none => exact absurd rfl ((digitOf_eq_none_iff _).1 h d)

theorem invEntry_toNat (c : Byte) : (invEntry c).toNat = ((digitOf c).map Fin.val).getD 64 := by
  unfold invEntry
  cases digitOf c with
  | none => rfl
  | some d =>
    have := d.isLt
    rw [BitVec.toNat_append]
    simp
    omega

theorem readAlpha_of_lt {i : Nat} (h : i < 58) : readAlpha i = some (dataOfByte (alpha ⟨i, h⟩)) := by
  simp [readAlpha, h]

theorem readAlpha_of_ge {i : Nat} (h : 58 ≤ i) : readAlpha i = none := by
  simp [readAlpha, Nat.not_lt.2 h]

theorem readAccByte_of_lt {s : State} {i : Nat} (h : i < s.cfg.accBytes) :
    readAccByte s i = some (dataOfByte (accByte s.acc i)) := by
  simp [readAccByte, h]

theorem readAccByte_of_ge {s : State} {i : Nat} (h : s.cfg.accBytes ≤ i) : readAccByte s i = none := by
  simp [readAccByte, Nat.not_lt.2 h]

theorem readSR_of_ge {s : State} {n : Nat} (h : 10 ≤ n) : readSR s n = none := by
  unfold readSR
  split <;> first | omega | rfl

end Sys2Proof.Machine
end

