-- ==== Sys2Proof/Laws/State.lean ====
section
/-! SUPPORT. One lemma per field per shared update of the state, each true by computation: no later proof unfolds a
record update. -/

namespace Sys2Proof.Machine

/-! ## `respond` -/

@[simp] theorem respond_cfg (ok : Bool) (d : Data) (s : State) : (respond ok d s).cfg = s.cfg := rfl
@[simp] theorem respond_acc (ok : Bool) (d : Data) (s : State) : (respond ok d s).acc = s.acc := rfl
@[simp] theorem respond_rem (ok : Bool) (d : Data) (s : State) : (respond ok d s).rem = s.rem := rfl
@[simp] theorem respond_pad (ok : Bool) (d : Data) (s : State) : (respond ok d s).pad = s.pad := rfl
@[simp] theorem respond_lead (ok : Bool) (d : Data) (s : State) : (respond ok d s).lead = s.lead := rfl
@[simp] theorem respond_dstk (ok : Bool) (d : Data) (s : State) : (respond ok d s).dstk = s.dstk := rfl
@[simp] theorem respond_oidx (ok : Bool) (d : Data) (s : State) : (respond ok d s).oidx = s.oidx := rfl
@[simp] theorem respond_phase (ok : Bool) (d : Data) (s : State) : (respond ok d s).phase = s.phase := rfl
@[simp] theorem respond_err (ok : Bool) (d : Data) (s : State) : (respond ok d s).err = s.err := rfl
@[simp] theorem respond_errch (ok : Bool) (d : Data) (s : State) : (respond ok d s).errch = s.errch := rfl
@[simp] theorem respond_host (ok : Bool) (d : Data) (s : State) : (respond ok d s).host = s.host := rfl
@[simp] theorem respond_rsp (ok : Bool) (d : Data) (s : State) : (respond ok d s).rsp = s.rsp ++ [responseWord ok (statusByte s) d] := rfl

/-! ## `raise` -/

@[simp] theorem raise_cfg (c : Cause) (w : CmdWord) (s : State) : (raise c w s).cfg = s.cfg := rfl
@[simp] theorem raise_acc (c : Cause) (w : CmdWord) (s : State) : (raise c w s).acc = s.acc := rfl
@[simp] theorem raise_rem (c : Cause) (w : CmdWord) (s : State) : (raise c w s).rem = s.rem := rfl
@[simp] theorem raise_pad (c : Cause) (w : CmdWord) (s : State) : (raise c w s).pad = s.pad := rfl
@[simp] theorem raise_lead (c : Cause) (w : CmdWord) (s : State) : (raise c w s).lead = s.lead := rfl
@[simp] theorem raise_dstk (c : Cause) (w : CmdWord) (s : State) : (raise c w s).dstk = s.dstk := rfl
@[simp] theorem raise_oidx (c : Cause) (w : CmdWord) (s : State) : (raise c w s).oidx = s.oidx := rfl
@[simp] theorem raise_phase (c : Cause) (w : CmdWord) (s : State) : (raise c w s).phase = .fault := rfl
@[simp] theorem raise_err (c : Cause) (w : CmdWord) (s : State) : (raise c w s).err = some c := rfl
@[simp] theorem raise_errch (c : Cause) (w : CmdWord) (s : State) : (raise c w s).errch = fieldLow w := rfl
@[simp] theorem raise_host (c : Cause) (w : CmdWord) (s : State) : (raise c w s).host = s.host := rfl

/-! ## `refuseInFault` -/

@[simp] theorem refuseInFault_cfg (s : State) : (refuseInFault s).cfg = s.cfg := rfl
@[simp] theorem refuseInFault_acc (s : State) : (refuseInFault s).acc = s.acc := rfl
@[simp] theorem refuseInFault_rem (s : State) : (refuseInFault s).rem = s.rem := rfl
@[simp] theorem refuseInFault_pad (s : State) : (refuseInFault s).pad = s.pad := rfl
@[simp] theorem refuseInFault_lead (s : State) : (refuseInFault s).lead = s.lead := rfl
@[simp] theorem refuseInFault_dstk (s : State) : (refuseInFault s).dstk = s.dstk := rfl
@[simp] theorem refuseInFault_oidx (s : State) : (refuseInFault s).oidx = s.oidx := rfl
@[simp] theorem refuseInFault_phase (s : State) : (refuseInFault s).phase = s.phase := rfl
@[simp] theorem refuseInFault_err (s : State) : (refuseInFault s).err = s.err := rfl
@[simp] theorem refuseInFault_errch (s : State) : (refuseInFault s).errch = s.errch := rfl
@[simp] theorem refuseInFault_host (s : State) : (refuseInFault s).host = s.host := rfl
@[simp] theorem refuseInFault_rsp (s : State) : (refuseInFault s).rsp = s.rsp ++ [responseWord false (statusByte s) (errInfo s)] := rfl

/-! ## `clearEngine` -/

@[simp] theorem clearEngine_cfg (s : State) : (clearEngine s).cfg = s.cfg := rfl
@[simp] theorem clearEngine_acc (s : State) : (clearEngine s).acc = 0 := rfl
@[simp] theorem clearEngine_rem (s : State) : (clearEngine s).rem = 0 := rfl
@[simp] theorem clearEngine_pad (s : State) : (clearEngine s).pad = 0 := rfl
@[simp] theorem clearEngine_lead (s : State) : (clearEngine s).lead = true := rfl
@[simp] theorem clearEngine_dstk (s : State) : (clearEngine s).dstk = [] := rfl
@[simp] theorem clearEngine_oidx (s : State) : (clearEngine s).oidx = 0 := rfl
@[simp] theorem clearEngine_phase (s : State) : (clearEngine s).phase = .idle := rfl
@[simp] theorem clearEngine_err (s : State) : (clearEngine s).err = none := rfl
@[simp] theorem clearEngine_errch (s : State) : (clearEngine s).errch = 0 := rfl
@[simp] theorem clearEngine_host (s : State) : (clearEngine s).host = s.host := rfl
@[simp] theorem clearEngine_rsp (s : State) : (clearEngine s).rsp = s.rsp := rfl

/-! ## `divStep` -/

@[simp] theorem divStep_cfg (s : State) : (divStep s).cfg = s.cfg := rfl
@[simp] theorem divStep_acc (s : State) : (divStep s).acc = s.acc / 58 := rfl
@[simp] theorem divStep_rem (s : State) : (divStep s).rem = remDigit s.acc := rfl
@[simp] theorem divStep_pad (s : State) : (divStep s).pad = s.pad := rfl
@[simp] theorem divStep_lead (s : State) : (divStep s).lead = s.lead := rfl
@[simp] theorem divStep_dstk (s : State) : (divStep s).dstk = s.dstk ++ [remDigit s.acc] := rfl
@[simp] theorem divStep_oidx (s : State) : (divStep s).oidx = s.oidx := rfl
@[simp] theorem divStep_phase (s : State) : (divStep s).phase = s.phase := rfl
@[simp] theorem divStep_err (s : State) : (divStep s).err = s.err := rfl
@[simp] theorem divStep_errch (s : State) : (divStep s).errch = s.errch := rfl
@[simp] theorem divStep_host (s : State) : (divStep s).host = s.host := rfl
@[simp] theorem divStep_rsp (s : State) : (divStep s).rsp = s.rsp := rfl

/-! ## `present` -/

@[simp] theorem present_cfg (w : CmdWord) (s : State) : (present w s).cfg = s.cfg := rfl
@[simp] theorem present_acc (w : CmdWord) (s : State) : (present w s).acc = s.acc := rfl
@[simp] theorem present_rem (w : CmdWord) (s : State) : (present w s).rem = s.rem := rfl
@[simp] theorem present_pad (w : CmdWord) (s : State) : (present w s).pad = s.pad := rfl
@[simp] theorem present_lead (w : CmdWord) (s : State) : (present w s).lead = s.lead := rfl
@[simp] theorem present_dstk (w : CmdWord) (s : State) : (present w s).dstk = s.dstk := rfl
@[simp] theorem present_oidx (w : CmdWord) (s : State) : (present w s).oidx = s.oidx := rfl
@[simp] theorem present_phase (w : CmdWord) (s : State) : (present w s).phase = s.phase := rfl
@[simp] theorem present_err (w : CmdWord) (s : State) : (present w s).err = s.err := rfl
@[simp] theorem present_errch (w : CmdWord) (s : State) : (present w s).errch = s.errch := rfl
@[simp] theorem present_host (w : CmdWord) (s : State) : (present w s).host = .command w :: s.host := rfl
@[simp] theorem present_rsp (w : CmdWord) (s : State) : (present w s).rsp = s.rsp := rfl

end Sys2Proof.Machine
end

