-- ==== Sys2Proof/Laws/Response.lean ====
section
/-! SUPPORT. What a response word holds, as numbers: the bridge from the commands' bit operations to the claims'
words (spec/10_state.md R24, R27; spec/30_encoding.md R64). -/

namespace Sys2Proof.Machine

theorem responseWord_toNat (ok : Bool) (st : Byte) (d : Data) :
    (responseWord ok st d).toNat = d.toNat + st.toNat * 65536 + (if ok = true then 16777216 else 0) := by
  unfold responseWord
  simp only [append_toNat]
  cases ok <;> simp <;> omega

theorem phaseCode_toNat (p : Phase) : p.code.toNat = phaseNumber p := by cases p <;> rfl

theorem errCode_toNat (e : Option Cause) : (errCode e).toNat = errNumber e := by
  cases e with
  | none => rfl
  | some c => cases c <;> rfl

theorem errInfo_toNat (s : State) : (errInfo s).toNat = errInfoNumber s := by
  unfold errInfo errInfoNumber
  simp only [append_toNat, errCode_toNat]
  simp

theorem flagZ_iff (s : State) : flagZ s = true ↔ s.acc = 0 := by simp [flagZ]

theorem flagFLT_iff (s : State) : flagFLT s = true ↔ s.err ≠ none := by simp [flagFLT]

theorem bitvec_ne_zero_iff {n : Nat} (x : BitVec n) : x ≠ 0 ↔ 0 < x.toNat := by
  rw [Nat.pos_iff_ne_zero, not_iff_not]
  exact ⟨fun h => by simp [h], fun h => BitVec.eq_of_toNat_eq (by simpa using h)⟩

theorem flagORDY_iff (s : State) : flagORDY s = true ↔
    (s.phase = .encOut ∧ (0 < s.pad.toNat ∨ 0 < s.dstk.length)) ∨
      (s.phase = .decOut ∧ (0 < s.pad.toNat ∨ 0 < s.oidx.toNat)) := by
  simp [flagORDY, State.sp, ← bitvec_ne_zero_iff, List.length_pos_iff]

theorem statusByte_toNat (s : State) : (statusByte s).toNat = statusNumber s := by
  unfold statusByte statusNumber
  simp only [append_toNat, phaseCode_toNat, ← flagZ_iff, ← flagORDY_iff, ← flagFLT_iff]
  cases flagZ s <;> cases flagORDY s <;> cases flagFLT s <;> cases s.lead <;> simp <;> omega

theorem statusNumber_lt (s : State) : statusNumber s < 256 := by
  rw [← statusByte_toNat]; exact (statusByte s).isLt

theorem errInfoNumber_lt (s : State) : errInfoNumber s < 65536 := by
  rw [← errInfo_toNat]; exact (errInfo s).isLt

/-- What `respond` does, in the claims' words. -/
theorem respond_eq_answerWith (ok : Bool) (d : Data) (s : State) : respond ok d s = answerWith ok d.toNat s := by
  have h : responseWord ok (statusByte s) d =
      BitVec.ofNat 32 (d.toNat + statusNumber s * 65536 + (if ok = true then 16777216 else 0)) := by
    rw [← statusByte_toNat, ← responseWord_toNat, BitVec.ofNat_toNat]
    rfl
  simp [respond, answerWith, h]

/-- What `raise` does, in the claims' words. -/
theorem raise_eq_withFault (c : Cause) (w : CmdWord) (s : State) : raise c w s = withFault c (fieldLow w) s := by
  simp [raise, withFault, respond_eq_answerWith, errInfo_toNat, errInfoNumber, errNumber]

theorem refuseInFault_eq_withRefusal (s : State) : refuseInFault s = withRefusal s := by
  simp [refuseInFault, withRefusal, respond_eq_answerWith, errInfo_toNat]

theorem respond_refusal_eq (s : State) : respond false 0 s = withBenignRefusal s := by
  simp [withBenignRefusal, respond_eq_answerWith]

/-- What the host reads of a response with DATA `d`. -/
theorem responseView_answer (ok : Bool) (d : Nat) (s : State) (h : d < 65536) :
    responseView (BitVec.ofNat 32 (d + statusNumber s * 65536 + (if ok = true then 16777216 else 0))) =
      (ok, decide (s.err ≠ none), d) := by
  have hs := statusNumber_lt s
  have hf : statusNumber s / 128 % 2 = if s.err ≠ none then 1 else 0 := by
    have hp : phaseNumber s.phase ≤ 7 := by cases s.phase <;> decide
    unfold statusNumber
    split <;> split <;> split <;> split <;> omega
  have hn : (BitVec.ofNat 32 (d + statusNumber s * 65536 + (if ok = true then 16777216 else 0))).toNat =
      d + statusNumber s * 65536 + (if ok = true then 16777216 else 0) := by
    rw [BitVec.toNat_ofNat, Nat.mod_eq_of_lt (by split <;> omega)]
  have hb : (d + statusNumber s * 65536 + (if ok = true then 16777216 else 0)) / 2 ^ 23 % 2 =
      statusNumber s / 128 % 2 := by
    cases ok <;> simp <;> omega
  unfold responseView
  rw [hn, hb, hf]
  refine Prod.ext ?_ (Prod.ext ?_ ?_)
  · cases ok <;> simp <;> omega
  · by_cases he : s.err = none <;> simp [he]
  · cases ok <;> simp <;> omega

end Sys2Proof.Machine
end

