-- ==== Sys2Proof/Laws/Ops.lean ====
section
/-! SUPPORT. What each shared operation can do, said once (spec/30_encoding.md R70; spec/42_encode.md R113). -/

namespace Sys2Proof.Machine

/-! ## The front of a stateful command -/

/-- All a stateful command can do: it is refused in FAULT, it raises EPROTO out of phase, or it is performed. -/
theorem stateful_cases (i : Instr) (f : State → State) (s : State) :
    (s.phase = .fault ∧ stateful i f s = withRefusal s) ∨
    (s.phase ≠ .fault ∧ s.phase ∉ legalPhases i ∧ stateful i f s = withFault .eproto (fieldLow (encode i)) s) ∨
    (s.phase ≠ .fault ∧ s.phase ∈ legalPhases i ∧ stateful i f s = f s) := by
  unfold stateful
  by_cases hf : s.phase = .fault
  · simp [hf, refuseInFault_eq_withRefusal]
  · by_cases hl : s.phase ∈ legalPhases i
    · simp [hf, hl]
    · simp [hf, hl, raise_eq_withFault]

theorem stateful_of_fault {i : Instr} {f : State → State} {s : State} (h : s.phase = .fault) :
    stateful i f s = withRefusal s := by
  simp [stateful, h, refuseInFault_eq_withRefusal]

theorem stateful_of_legal {i : Instr} {f : State → State} {s : State} (hf : s.phase ≠ .fault)
    (h : s.phase ∈ legalPhases i) : stateful i f s = f s := by
  simp [stateful, h, hf]

theorem stateful_of_not_legal {i : Instr} {f : State → State} {s : State} (hf : s.phase ≠ .fault)
    (h : s.phase ∉ legalPhases i) : stateful i f s = withFault .eproto (fieldLow (encode i)) s := by
  simp [stateful, h, hf, raise_eq_withFault]

/-! ## Reads, illegal words, the reset state -/

/-- All a read can do: it answers with the entry, or it is a benign refusal. -/
theorem answerRead_cases (entry : Option Data) (s : State) :
    (∃ d, entry = some d ∧ answerRead entry s = answerWith true d.toNat s) ∨
    (entry = none ∧ answerRead entry s = withBenignRefusal s) := by
  cases entry with
  | none => exact .inr ⟨rfl, respond_refusal_eq s⟩
  | some d => exact .inl ⟨d, rfl, respond_eq_answerWith true d s⟩

/-- All an illegal word can do: it is refused in FAULT, else it raises EILL. -/
theorem takeIllegal_cases (w : CmdWord) (s : State) :
    (s.phase = .fault ∧ takeIllegal w s = withRefusal s) ∨
    (s.phase ≠ .fault ∧ takeIllegal w s = withFault .eill (fieldLow w) s) := by
  by_cases h : s.phase = .fault
  · exact .inl ⟨h, by simp [takeIllegal, h, refuseInFault_eq_withRefusal]⟩
  · exact .inr ⟨h, by simp [takeIllegal, h, raise_eq_withFault]⟩

theorem clearEngine_eq_freshEngine (s : State) : clearEngine s = freshEngine s.cfg s.host s.rsp := rfl

/-! ## The division loop -/

/-- ndigits(ACC) division steps bring ACC to 0 and push the digits of ACC, least significant first; REM is the last
remainder. -/
theorem divLoop_eq : ∀ (n : Nat) (s : State), s.acc = n →
    divLoop (ndigits n) s =
      { s with acc := 0, rem := (digitsMin n).headD s.rem, dstk := s.dstk ++ (digitsMin n).reverse } := by
  intro n
  induction n using Nat.strong_induction_on with
  | _ n ih =>
    intro s hs
    by_cases h : n = 0
    · subst h
      cases s
      simp_all [divLoop]
    · have hlt : n / 58 < n := Nat.div_lt_self (Nat.pos_of_ne_zero h) (by decide)
      rw [ndigits_step h, digitsMin_step h]
      have hstep := ih (n / 58) hlt (divStep s) (by simp [hs])
      simp only [divLoop, hs, h, if_false, hstep]
      simp [divStep, hs]

end Sys2Proof.Machine
end

