-- ==== Sys2Proof/Laws/PerInstr.lean ====
section
/-! SUPPORT. For each command as syntax: its word lies in its own row of the opcode table (spec/30_encoding.md R66). -/

namespace Sys2Proof.Laws.RowSelects

/-- The row of the command is a row of the table, and the command's word selects it. -/
def Statement (i : Instr) : Prop := rowOf i ∈ opcodeTable ∧ (rowOf i).selects (encode i) = true

/-- Masking the symbol away leaves the opcode. -/
theorem symbol_masked (op : BitVec 4) (b : Byte) : encodeB op b &&& 0xFF00#16 = encodeZ op := by
  apply BitVec.eq_of_toNat_eq
  rw [and_upperMask_toNat, encodeB_toNat, encodeZ_toNat]
  have := b.isLt
  omega

/-- Masking the index away leaves the opcode. -/
theorem index_masked (op : BitVec 4) (idx : Nat) : encodeX op idx &&& 0xF000#16 = encodeZ op := by
  apply BitVec.eq_of_toNat_eq
  rw [and_opcodeMask_toNat, encodeX_toNat, encodeZ_toNat]
  omega

theorem nop : Statement .nop := by constructor <;> decide

theorem clr : Statement .clr := by constructor <;> decide

theorem encb (b : Byte) : Statement (.encb b) :=
  ⟨by simp [opcodeTable, rowOf], beq_iff_eq.2 (symbol_masked 2 b)⟩

theorem divs : Statement .divs := by constructor <;> decide

theorem encf : Statement .encf := by constructor <;> decide

theorem popc : Statement .popc := by constructor <;> decide

theorem decc (c : Byte) : Statement (.decc c) :=
  ⟨by simp [opcodeTable, rowOf], beq_iff_eq.2 (symbol_masked 6 c)⟩

theorem decf : Statement .decf := by constructor <;> decide

theorem popb : Statement .popb := by constructor <;> decide

theorem luta (idx : Nat) : Statement (.luta idx) :=
  ⟨by simp [opcodeTable, rowOf], beq_iff_eq.2 (index_masked 9 idx)⟩

theorem lutv (c : Byte) : Statement (.lutv c) :=
  ⟨by simp [opcodeTable, rowOf], beq_iff_eq.2 (symbol_masked 10 c)⟩

theorem rdsr (idx : Nat) : Statement (.rdsr idx) :=
  ⟨by simp [opcodeTable, rowOf], beq_iff_eq.2 (index_masked 11 idx)⟩

theorem rdab (idx : Nat) : Statement (.rdab idx) :=
  ⟨by simp [opcodeTable, rowOf], beq_iff_eq.2 (index_masked 12 idx)⟩

theorem rdds (idx : Nat) : Statement (.rdds idx) :=
  ⟨by simp [opcodeTable, rowOf], beq_iff_eq.2 (index_masked 13 idx)⟩

end Sys2Proof.Laws.RowSelects
end

