-- ==== Sys2Proof/Laws/Step.lean ====
section
/-! SUPPORT. What one step and a run of steps are (spec/30_encoding.md R70, R75). -/

namespace Sys2Proof.Machine

theorem nextEvent_nil {s : State} (h : s.host = []) : nextEvent s = none := by simp [nextEvent, h]

theorem nextEvent_cons {s : State} {e : HostEvent} {rest : List HostEvent} (h : s.host = e :: rest) :
    nextEvent s = some (e, { s with host := rest }) := by simp [nextEvent, h]

/-- No meaning stops: every command of every state gives a next state. -/
theorem exec_total (i : Instr) (s : State) : ∃ t, exec i s = .next t := by
  cases i <;> exact ⟨_, rfl⟩

/-- A run of `k + 1` steps is a step and a run of `k`. -/
theorem runSteps_succ {k : Nat} {s t : State} (h : step s = .next t) : runSteps (k + 1) s = runSteps k t := by
  simp only [runSteps, Host.Core.run]
  rw [show Sys2Proof.core.step s = .next t from h]

@[simp] theorem runSteps_zero (s : State) : runSteps 0 s = .next s := rfl

theorem presents_append (a b : List Instr) : presents (a ++ b) = presents a ++ presents b := by simp [presents]

theorem presents_cons (i : Instr) (is : List Instr) : presents (i :: is) = .command (encode i) :: presents is := rfl

end Sys2Proof.Machine
end

