-- ==== Sys2Proof/Machine/Assembler.lean ====
section
/-! DEFINITION. The assembler syntax of the host's program text (spec/30_encoding.md R71): one command per line, the
mnemonic in capitals, an operand, a comment from # to the end; `.word` for a word that is no command. Lines are
lists of characters. What the spec leaves open of the text (spaces, how a number may be written, which quoted
characters count as printable, # inside quotes) is chosen here: DESIGN CHOICE, log 17. -/

namespace Sys2Proof.Machine

/-- The value of a digit in base 16; small and capital letters. -/
def digitValue (c : Char) : Option Nat :=
  let n := c.toNat
  if 48 ≤ n ∧ n ≤ 57 then some (n - 48)
  else if 65 ≤ n ∧ n ≤ 70 then some (n - 55)
  else if 97 ≤ n ∧ n ≤ 102 then some (n - 87)
  else none

/-- Digits in base `b`, most significant first. -/
def readDigits (b : Nat) : Nat → List Char → Option Nat
  | v, [] => some v
  | v, c :: cs =>
    match digitValue c with
    | none => none
    | some d => if d < b then readDigits b (v * b + d) cs else none

/-- A number: decimal, with the prefix 0x, or with the prefix 0b. R71's examples show the first two; that program text
may use the 0b of R8's notation too is a DESIGN CHOICE, log 17. -/
def readNumber : List Char → Option Nat
  | [] => none
  | '0' :: 'x' :: c :: cs => readDigits 16 0 (c :: cs)
  | '0' :: 'b' :: c :: cs => readDigits 2 0 (c :: cs)
  | c :: cs => readDigits 10 0 (c :: cs)

/-- An operand as it is written. -/
inductive AsmOperand where
  | number (n : Nat)
  | character (c : Char)
deriving DecidableEq, Repr

/-- What may follow an operand: spaces, then nothing or a comment. -/
def endsLine (cs : List Char) : Bool :=
  match cs.dropWhile (· == ' ') with
  | [] => true
  | c :: _ => c == '#'

/-- The operand of a line: a number, a character in single quotes, or none; the rest must end the line. Inside the
quotes # is the character and starts no comment: DESIGN CHOICE, log 17 (R71 says that any other printable character
may be quoted, and that a comment runs from # to the end of the line). -/
def readOperand (cs : List Char) : Option (Option AsmOperand) :=
  match cs.dropWhile (· == ' ') with
  | '\'' :: c :: '\'' :: rest => if endsLine rest then some (some (.character c)) else none
  | rest =>
    if endsLine rest then some none
    else
      let isWordChar : Char → Bool := fun c => c != ' ' && c != '#'
      if endsLine (rest.dropWhile isWordChar) then
        (readNumber (rest.takeWhile isWordChar)).map fun n => some (.number n)
      else none

/-- Format Z takes no operand. -/
def asmZ (i : Instr) : Option AsmOperand → Option CmdWord
  | none => some (encode i)
  | some _ => none

/-- A printable character: 0x20 to 0x7E in the codes of R31's table. R71 does not list them: DESIGN CHOICE, log 17. -/
def isPrintable (c : Char) : Bool := decide (0x20 ≤ c.toNat ∧ c.toNat ≤ 0x7E)

/-- A byte operand; a quoted printable character only where the command takes a character code (R71). -/
def asmB (mk : Byte → Instr) (takesChar : Bool) : Option AsmOperand → Option CmdWord
  | some (.number n) => if n < 256 then some (encode (mk (BitVec.ofNat 8 n))) else none
  | some (.character c) =>
    if takesChar ∧ isPrintable c then some (encode (mk (BitVec.ofNat 8 c.toNat))) else none
  | none => none

/-- An index operand. -/
def asmX (mk : Nat → Instr) : Option AsmOperand → Option CmdWord
  | some (.number n) => if n < 4096 then some (encode (mk n)) else none
  | some (.character _) => none
  | none => none

/-- `.word n`: any word, as data. -/
def asmWord : Option AsmOperand → Option CmdWord
  | some (.number n) => if n < 65536 then some (BitVec.ofNat 16 n) else none
  | some (.character _) => none
  | none => none

/-- The word of a mnemonic with its operand. -/
def asmCommand (mnemonic : List Char) (operand : Option AsmOperand) : Option CmdWord :=
  match mnemonic with
  | ['N', 'O', 'P'] => asmZ .nop operand
  | ['C', 'L', 'R'] => asmZ .clr operand
  | ['E', 'N', 'C', 'B'] => asmB .encb false operand
  | ['D', 'I', 'V', 'S'] => asmZ .divs operand
  | ['E', 'N', 'C', 'F'] => asmZ .encf operand
  | ['P', 'O', 'P', 'C'] => asmZ .popc operand
  | ['D', 'E', 'C', 'C'] => asmB .decc true operand
  | ['D', 'E', 'C', 'F'] => asmZ .decf operand
  | ['P', 'O', 'P', 'B'] => asmZ .popb operand
  | ['L', 'U', 'T', 'A'] => asmX .luta operand
  | ['L', 'U', 'T', 'V'] => asmB .lutv true operand
  | ['R', 'D', 'S', 'R'] => asmX .rdsr operand
  | ['R', 'D', 'A', 'B'] => asmX .rdab operand
  | ['R', 'D', 'D', 'S'] => asmX .rdds operand
  | ['.', 'w', 'o', 'r', 'd'] => asmWord operand
  | _ => none

/-- One line: `none` when it is not a line of the syntax, `some none` when it holds no command (blank, or a comment
only), else the word. -/
def assembleLine (line : List Char) : Option (Option CmdWord) :=
  let isMnemonicChar : Char → Bool := fun c => c != ' ' && c != '#'
  let text := line.dropWhile (· == ' ')
  if endsLine text then some none
  else
    match readOperand (text.dropWhile isMnemonicChar) with
    | none => none
    | some operand => (asmCommand (text.takeWhile isMnemonicChar) operand).map some

end Sys2Proof.Machine
end

