-- ==== Sys2Proof/Tests/Slice0.lean ====
section
/-! SUPPORT. Tests, and for each claim with hypotheses a witness that meets them. Expected words, responses and
states are rows of spec/95_test_vectors.md, whose section each test names; encodings are written out from
spec/30_encoding.md R66. -/

namespace Sys2Proof.Tests

open Sys2Proof Sys2Proof.Machine

/-! ## Well-formedness refuses an index that has no 12-bit field (R62) -/

theorem test_wf_refuses_luta_4096 : (Instr.luta 4096).wf = false := by decide
theorem test_wf_refuses_rdsr_4096 : (Instr.rdsr 4096).wf = false := by decide
theorem test_wf_refuses_rdab_4096 : (Instr.rdab 4096).wf = false := by decide
theorem test_wf_refuses_rdds_4096 : (Instr.rdds 4096).wf = false := by decide
theorem test_wf_takes_the_last_index :
    (Instr.luta 4095).wf ∧ (Instr.rdsr 4095).wf ∧ (Instr.rdab 4095).wf ∧ (Instr.rdds 4095).wf := by decide

/-! ## Words, bit by bit from the table: OP, then ARG -/

theorem test_decode_nop : decode 0b0000_000000000000 = .ok .nop := by decide
theorem test_decode_clr : decode 0b0001_000000000000 = .ok .clr := by decide
theorem test_decode_encb : decode 0b0010_0000_01100001 = .ok (.encb 0x61) := by decide
theorem test_decode_divs : decode 0b0011_000000000000 = .ok .divs := by decide
theorem test_decode_encf : decode 0b0100_000000000000 = .ok .encf := by decide
theorem test_decode_popc : decode 0b0101_000000000000 = .ok .popc := by decide
theorem test_decode_decc : decode 0b0110_0000_01101100 = .ok (.decc 0x6C) := by decide
theorem test_decode_decf : decode 0b0111_000000000000 = .ok .decf := by decide
theorem test_decode_popb : decode 0b1000_000000000000 = .ok .popb := by decide
theorem test_decode_luta : decode 0b1001_000000111001 = .ok (.luta 57) := by decide
theorem test_decode_lutv : decode 0b1010_0000_00110000 = .ok (.lutv 0x30) := by decide
theorem test_decode_rdsr : decode 0b1011_000000000100 = .ok (.rdsr 4) := by decide
theorem test_decode_rdab : decode 0b1100_100000000001 = .ok (.rdab 2049) := by decide
theorem test_decode_rdds : decode 0b1101_111111111111 = .ok (.rdds 4095) := by decide
theorem test_decode_reserved_opcodes :
    decode 0xE000 = .error .reservedOpcode ∧ decode 0xFFFF = .error .reservedOpcode := by decide
theorem test_decode_z_with_operand : decode 0x3001 = .error .operandNotZero := by decide
theorem test_decode_b_with_upper_bits : decode 0x2161 = .error .upperOperandNotZero := by decide
theorem test_decodeTableWord : decodeTableWord 16 0x2061 = some (.encb 0x61) ∧ decodeTableWord 16 0xE000 = none := by
  decide
theorem test_encode_decc : encode (.decc 0x31) = 0x6031 := by decide

/-! ## A state to test on, and what one command does to it -/

/-- The engine of the spec's vectors (A = 8), with a few components as given. -/
def engine (phase : Phase) (acc : Nat := 0) (pad : BitVec 16 := 0) (lead : Bool := false) (dstk : List Digit := [])
    (oidx : BitVec 16 := 0) : State :=
  { State.reset with acc := acc, pad := pad, lead := lead, dstk := dstk, oidx := oidx, phase := phase }

/-- The same with A = 1 (S = 2). -/
def tiny (phase : Phase) (acc : Nat := 0) (pad : BitVec 16 := 0) (lead : Bool := false) (dstk : List Digit := [])
    (oidx : BitVec 16 := 0) : State :=
  { engine phase acc pad lead dstk oidx with cfg := ⟨1⟩ }

/-- The engine after the EINVCH of `DECC '0'` (95_test_vectors S6). -/
def faulted : State := { engine .fault 0 0 true with err := some .einvch, errch := 0x30 }

/-- The host presents one command; the state after the step. -/
def after (i : Instr) (s : State) : State := ask (encode i) s

/-- The response to that command. -/
def reply (i : Instr) (s : State) : Option RspWord := (after i s).rsp.getLast?

/-! ## One step of each command -/

/-- 2.2: NOP in the reset state; STATUS after reset is 0x18. -/
theorem test_nop : reply .nop State.reset = some 0x01180000 := by decide
/-- 2.6 R177 matrix, NOP in FAULT: performed, STATUS 0x9F. -/
theorem test_nop_in_fault : reply .nop faulted = some 0x019F0000 ∧ (after .nop faulted).phase = .fault := by decide
/-- S6: CLR in FAULT. -/
theorem test_clr : reply .clr faulted = some 0x01180000 ∧ (after .clr faulted).err = none ∧
    (after .clr faulted).phase = .idle := by decide
/-- S5: `ENCB 0x61` after one zero byte. -/
theorem test_encb : reply (.encb 0x61) (engine .encIn 0 1 true) = some 0x01010000 ∧
    (after (.encb 0x61) (engine .encIn 0 1 true)).acc = 0x61 := by decide
/-- S3: a leading zero byte is counted. -/
theorem test_encb_leading_zero : reply (.encb 0) State.reset = some 0x01190000 ∧
    (after (.encb 0) State.reset).pad = 1 := by decide
/-- 2.3: the division of 0xFF by 58 in an engine with A = 1. -/
theorem test_divs : reply .divs (tiny .encIn 255) = some 0x01020017 ∧
    (after .divs (tiny .encIn 255)).acc = 4 ∧ (after .divs (tiny .encIn 255)).dstk = [23] := by decide
/-- 2.3: the same engine with its stack full: ESTK. -/
theorem test_divs_full : reply .divs { tiny .encDiv 0 0 false [23, 4] with rem := 4 } = some 0x008F0300 := by decide
/-- S5: ENCF of 00 61. -/
theorem test_encf : reply .encf (engine .encIn 0x61 1) = some 0x012B0002 ∧
    (after .encf (engine .encIn 0x61 1)).dstk = [39, 1] ∧ (after .encf (engine .encIn 0x61 1)).rem = 1 := by decide
/-- S1: ENCF from IDLE pushes nothing. -/
theorem test_encf_idle : reply .encf State.reset = some 0x011B0000 := by decide
/-- S5: the pad first, then the top digit. -/
theorem test_popc_pad : reply .popc (engine .encOut 0 1 false [39, 1]) = some 0x012B0031 := by decide
theorem test_popc_digit : reply .popc (engine .encOut 0 0 false [39, 1]) = some 0x012B0032 ∧
    (after .popc (engine .encOut 0 0 false [39, 1])).dstk = [39] := by decide
/-- S6: the invalid character '0'. -/
theorem test_decc_invalid : reply (.decc 0x30) State.reset = some 0x009F0130 ∧
    after (.decc 0x30) State.reset = { faulted with rsp := [0x009F0130] } := by decide
/-- 2.4: '1' after a digit is no pad: it multiplies by 58. -/
theorem test_decc_one_inside : reply (.decc 0x31) (engine .decIn 1 1) = some 0x01040000 ∧
    (after (.decc 0x31) (engine .decIn 1 1)).acc = 0x3A := by decide
/-- S8: three '1' characters leave two pads. -/
theorem test_decf_all_ones : reply .decf (engine .decIn 0 3 true) = some 0x013D0000 ∧
    (after .decf (engine .decIn 0 3 true)).pad = 2 := by decide
/-- 2.4: one pad and a value. -/
theorem test_decf_value : reply .decf (engine .decIn 0x3A 1) = some 0x01250001 ∧
    (after .decf (engine .decIn 0x3A 1)).oidx = 1 := by decide
/-- 2.4: the bytes of 0x100, the most significant first. -/
theorem test_popb_byte : reply .popb (engine .decOut 0x100 0 false [] 2) = some 0x01250001 ∧
    (after .popb (engine .decOut 0x100 0 false [] 2)).oidx = 1 := by decide
/-- S2: nothing to deliver, a benign refusal. -/
theorem test_popb_empty : reply .popb (engine .decOut 0 0 true) = some 0x001D0000 := by decide
/-- 2.5. -/
theorem test_luta : reply (.luta 44) State.reset = some 0x0118006D ∧ reply (.luta 58) State.reset = some 0x00180000 := by
  decide
theorem test_lutv : reply (.lutv 0x7A) State.reset = some 0x01180039 ∧
    reply (.lutv 0x30) State.reset = some 0x01180040 := by decide
theorem test_rdsr_errinfo : reply (.rdsr 4) faulted = some 0x019F0130 := by decide
theorem test_rdsr_constants : reply (.rdsr 8) State.reset = some 0x0118000B ∧
    reply (.rdsr 9) State.reset = some 0x01180B58 := by decide
theorem test_rdab : reply (.rdab 2) (engine .encIn 0x10203) = some 0x01010001 ∧
    reply (.rdab 8) (engine .encIn 0x10203) = some 0x00010000 := by decide
theorem test_rdds : reply (.rdds 0) (engine .encOut 0 0 false [39, 1]) = some 0x012B0027 ∧
    reply (.rdds 2) (engine .encOut 0 0 false [39, 1]) = some 0x002B0000 := by decide
/-- 2.6: an illegal word, and a step from the word the host's hook stores. -/
theorem test_illegal_word : (ask 0xE000 State.reset).rsp = [0x009F0600] := by decide
theorem test_withFetchWord : step (State.reset.withFetchWord 16 0x2061) = exec (.encb 0x61) State.reset := rfl

/-! ## The host's text (R71) and the reference functions -/

theorem test_assemble_decc : assembleLine ['D', 'E', 'C', 'C', ' ', '\'', 'l', '\''] = some (some 0x606C) := by decide
theorem test_assemble_encb :
    assembleLine ['E', 'N', 'C', 'B', ' ', '0', 'x', '6', '1', ' ', '#', ' ', 'a'] = some (some 0x2061) := by decide
theorem test_assemble_rejects_operand_out_of_range :
    assembleLine ['E', 'N', 'C', 'B', ' ', '2', '5', '6'] = none := by decide
/-- R8's notation: 0b1100001 is 0x61. The choices of log 17. -/
theorem test_assemble_binary :
    assembleLine ['E', 'N', 'C', 'B', ' ', '0', 'b', '1', '1', '0', '0', '0', '0', '1'] = some (some 0x2061) := by decide
theorem test_assemble_quoted_hash :
    assembleLine ['D', 'E', 'C', 'C', ' ', '\'', '#', '\'', ' ', '#'] = some (some 0x6023) := by decide
theorem test_assemble_comment : assembleLine ['#', ' ', 'x'] = some none := by decide
/-- S5 and S3: encode(00 61) = "12g", encode(00 00 00 00) = "1111". -/
theorem test_enc : enc [0x00, 0x61] = [0x31, 0x32, 0x67] ∧ enc [0, 0, 0, 0] = [0x31, 0x31, 0x31, 0x31] := by decide
/-- S6: the trace of `DECODE "0"`, its closing DECF refused. -/
theorem test_sendDecode : (sendDecode [0x30] State.reset).rsp = [0x01180000, 0x009F0130, 0x009F0130] := by decide
/-- S8 and S6: decode("111") has two zero bytes; '0' is the invalid character. -/
theorem test_dec : dec [0x31, 0x31, 0x31] = .ok [0, 0] ∧ dec [0x30] = .error 0x30 := by decide

/-! ## Witnesses: states and operands that meet the hypotheses of a claim, each clause at a boundary -/

theorem witness_DecodeOfEncodeIsTheCommand : (Instr.rdds 4095).wf = true := by decide
theorem witness_EncodeOfDecodeIsTheWord : decode 0xDFFF = .ok (.rdds 4095) := by decide
theorem witness_WordSelectsRowItDecodesTo :
    rowOf (.encb 0) ∈ opcodeTable ∧ 0x20FF &&& (rowOf (.encb 0)).mask = (rowOf (.encb 0)).pattern := by decide
theorem witness_CommandWordIsOpcodeAndOperand : (Instr.luta 4095).wf = true := by decide

/-- The host presents `w` to the engine `s`, and then `rest`. -/
def presented (w : CmdWord) (rest : List HostEvent) (s : State) : State := { s with host := .command w :: rest }

theorem witness_StepRunsTheDecodedCommand :
    (presented 0x2061 [.reset] faulted).host = .command 0x2061 :: [.reset] ∧ decode 0x2061 = .ok (.encb 0x61) := by
  decide
theorem witness_IllegalWordRaisesEill :
    decode 0x1001 = .error .operandNotZero ∧ (presented 0x1001 [] State.reset).phase ≠ .fault ∧
      (presented 0x1001 [] faulted).phase = .fault := by decide
theorem witness_ResetAndClrLeaveTheResetValues :
    (Config.mk 1).Legal ∧ (Config.mk 4096).Legal ∧ ({ faulted with host := [.reset] } : State).host = .reset :: [] := by
  decide
theorem witness_EveryStepHasANextState : State.reset.host = [] := by decide

theorem witness_EncbCountsOrShiftsInAByte_phases :
    (engine .idle).phase = .idle ∧ (engine .encIn).phase = .encIn ∧
      (engine .decOut).phase ∈ [Phase.encDiv, .encOut, .decIn, .decOut] ∧ faulted.phase = .fault := by decide
theorem witness_EncbCountsOrShiftsInAByte_pad :
    (engine .encIn 0 65534 true).pad.toNat < 65535 ∧ (engine .encIn 0 65535 true).pad.toNat = 65535 ∧
      (engine .encIn 0 65535 true).lead = true ∧ State.reset.cfg.Legal := by decide
theorem witness_EncbCountsOrShiftsInAByte_capacity :
    ¬ ((tiny .encIn 0).lead = true ∧ (0xFF : Byte) = 0) ∧ (tiny .encIn 0).acc * 256 + (0xFF : Byte).toNat < 256 ^ 1 ∧
      256 ^ 1 ≤ (tiny .encIn 1).acc * 256 + (0 : Byte).toNat ∧ (tiny .encIn).cfg = ⟨1⟩ := by decide
theorem witness_DivsDividesOnceBy58 :
    (tiny .encDiv 255 0 false [0]).dstk.length ≠ dstkDepth ⟨1⟩ ∧ 255 = 58 * 4 + (23 : Digit).val ∧
      (tiny .encDiv 0 0 false [23, 4]).dstk.length = dstkDepth ⟨1⟩ ∧
      (engine .encOut).phase ∈ [Phase.encOut, .decIn, .decOut] := by decide
theorem witness_EncfRunsTheDivisionLoop :
    (tiny .encIn 255).dstk.length + ndigits 255 ≤ dstkDepth ⟨1⟩ ∧
      dstkDepth ⟨1⟩ < (tiny .encDiv 1 0 false [23, 4]).dstk.length + ndigits 1 := by decide
theorem witness_PopcDeliversPadThenStack :
    0 < (engine .encOut 0 1 false [39]).pad.toNat ∧
      ((engine .encOut 0 0 false [39]).pad.toNat = 0 ∧ (engine .encOut 0 0 false [39]).dstk = [] ++ [39]) ∧
      ((engine .encOut).pad.toNat = 0 ∧ (engine .encOut).dstk = []) ∧
      (engine .idle).phase ∈ [Phase.idle, .encIn, .encDiv, .decIn, .decOut] := by decide

theorem witness_DeccValidatesThenCountsOrAdds_invalid : ∀ i < 58, alphaCode i ≠ (0x30 : Byte).toNat := by decide
theorem witness_DeccValidatesThenCountsOrAdds_pad :
    alphaCode 0 = (0x31 : Byte).toNat ∧ (engine .decIn 0 65534 true).pad.toNat < 65535 ∧
      (engine .decIn 0 65535 true).pad.toNat = 65535 ∧ (engine .decIn 0 65535 true).lead = true := by decide
theorem witness_DeccValidatesThenCountsOrAdds_capacity :
    alphaCode 23 = (0x51 : Byte).toNat ∧ (tiny .decIn 4).acc * 58 + 23 < 256 ^ (tiny .decIn 4).cfg.accBytes ∧
      alphaCode 24 = (0x52 : Byte).toNat ∧ 256 ^ (tiny .decIn 4).cfg.accBytes ≤ (tiny .decIn 4).acc * 58 + 24 ∧
      ¬ ((tiny .decIn 4).lead = true ∧ 23 = 0) ∧
      (engine .encIn).phase ∈ [Phase.encIn, .encDiv, .encOut, .decOut] := by decide
theorem witness_DecfAppliesThePadRule :
    ((engine .decIn 0 1 true).lead = true ∧ 0 < (engine .decIn 0 1 true).pad.toNat) ∧
      ¬ (State.reset.lead = true ∧ 0 < State.reset.pad.toNat) ∧
      (tiny .decIn 255).acc < 256 ^ (tiny .decIn 255).cfg.accBytes ∧ (tiny .decIn 255).cfg.Legal := by decide
theorem witness_PopbDeliversPadThenBytes :
    0 < (engine .decOut 0x3A 1 false [] 1).pad.toNat ∧
      ((engine .decOut 0x3A 0 false [] 1).pad.toNat = 0 ∧ 0 < (engine .decOut 0x3A 0 false [] 1).oidx.toNat) ∧
      ((engine .decOut 0x3A).pad.toNat = 0 ∧ (engine .decOut 0x3A).oidx.toNat = 0) ∧
      (engine .decIn).phase ∈ [Phase.idle, .encIn, .encDiv, .encOut, .decIn] := by decide

theorem witness_LutaReadsTheAlphabet : 57 ≤ 57 ∧ 58 ≤ 58 ∧ 4095 < 4096 := by decide
theorem witness_LutvReadsTheValidationTable :
    alphaCode 0 = (0x31 : Byte).toNat ∧ alphaCode 57 = (0x7A : Byte).toNat ∧
      ∀ d < 58, alphaCode d ≠ (0x6C : Byte).toNat := by decide

/-- The invariant holds in a state of each kind the claims with that hypothesis need. -/
theorem witness_inv_encDiv_room : (tiny .encDiv 4 0 false [23]).Inv := by constructor <;> decide
theorem witness_inv_encDiv_full : (tiny .encDiv 0 0 false [23, 4]).Inv := by constructor <;> decide
theorem witness_inv_decOut : (engine .decOut 0x100 0 false [] 2).Inv := by constructor <;> decide
theorem witness_inv_encOut : (engine .encOut 0 65535 false [39, 1]).Inv := by constructor <;> decide
theorem witness_inv_fault : faulted.Inv := by constructor <;> decide
theorem witness_RdsrReadsTheStatusRegisters : State.reset.Inv ∧ 10 ≤ 10 := by
  refine ⟨?_, by decide⟩
  constructor <;> decide
theorem witness_RdabReadsAnAccumulatorByte : 7 < State.reset.cfg.accBytes ∧ State.reset.cfg.accBytes ≤ 8 := by decide
theorem witness_RddsReadsAStackEntry :
    4095 < 4096 ∧ (engine .encOut 0 0 false [39, 1]).dstk = [39] ++ 1 :: [] ∧ ([39] : List Digit).length = 1 ∧
      (engine .encOut 0 0 false [39, 1]).dstk.length ≤ 2 := by decide

theorem witness_PhaseTableDecidesTheOutcome :
    phaseTable (.encb 0) .encDiv = .proto ∧ phaseTable .popc .fault = .refused ∧ phaseTable .divs .encDiv = .ok := by
  decide
theorem witness_FaultEntryIsPrecise :
    (presented 0x6030 [] State.reset).phase ≠ .fault ∧
      step (presented 0x6030 [] State.reset) = .next { faulted with rsp := [0x009F0130] } := ⟨by decide, rfl⟩
theorem witness_FirstFaultSticks : (presented 0x7000 [] faulted).phase = .fault ∧ (0x7000 : CmdWord) ≠ 0x1000 := by
  decide
theorem witness_OnlyClrAndResetLeaveFault :
    (presented 0x1000 [] faulted).phase = .fault ∧
      step (presented 0x1000 [] faulted) = .next { State.reset with rsp := [0x01180000] } ∧
      step { faulted with host := [.reset] } = .next State.reset := ⟨by decide, rfl, rfl⟩
theorem witness_OneResponsePerCommandWord :
    (presented 0xFFFF [.reset] faulted).host = .command 0xFFFF :: [.reset] ∧
      ({ faulted with host := [.reset] } : State).host = .reset :: [] := by decide
theorem witness_FourKindsOfResponse : faulted.Inv ∧ (presented 0xB004 [] faulted).host = .command 0xB004 :: [] :=
  ⟨witness_inv_fault, rfl⟩
theorem witness_ReadOnlyCommandsChangeNothing : isReadOnly (.rdds 4095) = true := by decide
theorem witness_OrdyTellsWhetherThePopDelivers :
    (engine .encOut 0 1).phase = .encOut ∧ (engine .decOut 0x3A 0 false [] 1).phase = .decOut := by decide

theorem witness_InvariantHoldsAtReset : (Config.mk 1).Legal ∧ (Config.mk 4096).Legal := by decide
theorem witness_StepKeepsTheInvariant :
    faulted.Inv ∧ step { faulted with host := [.reset] } = .next State.reset := ⟨witness_inv_fault, rfl⟩
theorem witness_StackNeverOverflowsWhileZIsZero :
    (tiny .encDiv 4 0 false [23]).Inv ∧ (tiny .encDiv 4 0 false [23]).phase = .encDiv ∧
      (tiny .encDiv 4 0 false [23]).acc ≠ 0 := ⟨witness_inv_encDiv_room, by decide⟩
theorem witness_TopDigitIsNotZeroWhenTheDivisionEnds :
    (tiny .encDiv 4 0 false [23]).Inv ∧ (tiny .encDiv 4 0 false [23]).acc ≠ 0 ∧
      (∃ t, exec .divs (tiny .encDiv 4 0 false [23]) = .next t ∧ t.acc = 0) :=
  ⟨witness_inv_encDiv_room, by decide, _, rfl, rfl⟩
/-- R33 item 6 in the middle of a division (log 19): 58 div 58 = 1 and 58 mod 58 = 0, so Z is 0 and DSTK[0] is 0. -/
theorem test_divs_middle_of_division :
    after .divs (engine .encIn 58) = { engine .encDiv 1 0 false [0] with rsp := [0x01020000] } := by decide
/-- With Z = 0 before the DIVS, and with the pops not begun. -/
theorem witness_CoreStringHasNoLeadingZeroDigit :
    (presented 0x3000 [] (tiny .encDiv 4 0 false [23])).Inv ∧
      ¬ divisionEnded (presented 0x3000 [] (tiny .encDiv 4 0 false [23])) ∧
      noIdleDivsNorPop (presented 0x3000 [] (tiny .encDiv 4 0 false [23])) ∧
      (∃ t, step (presented 0x3000 [] (tiny .encDiv 4 0 false [23])) = .next t ∧ divisionEnded t) ∧
      runSteps 0 (freshEngine ⟨1⟩ [] []) = .next (freshEngine ⟨1⟩ [] []) :=
  ⟨by constructor <;> decide, by simp [divisionEnded, presented, tiny, engine],
    by simp [noIdleDivsNorPop, presented, tiny, engine], ⟨_, rfl, .inl ⟨rfl, rfl⟩⟩, rfl⟩
theorem witness_DivisionStepsKeepTheNumber :
    (tiny .encDiv 4 0 false [23]).Inv ∧ (tiny .encDiv 4 0 false [23]).phase = .encDiv ∧
      (∃ t, exec .divs (tiny .encDiv 4 0 false [23]) = .next t) ∧
      (∃ t, exec .encf (tiny .encDiv 4 0 false [23]) = .next t) ∧ (tiny .encDiv 4 0 false [23]).acc ≠ 0 :=
  ⟨witness_inv_encDiv_room, rfl, ⟨_, rfl⟩, ⟨_, rfl⟩, by decide⟩
theorem witness_ResponsesAfterClrForgetThePast :
    faulted.cfg = (engine .decIn 7).cfg ∧
      (presented 0x1000 [.command 0x4000] faulted).host = .command 0x1000 :: [.command 0x4000] := by decide
theorem witness_ResetAndClrGiveTheSameResponses :
    ({ faulted with host := [.reset, .command 0x4000] } : State).host = .reset :: [.command 0x4000] ∧
      (presented 0x1000 [.command 0x4000] (engine .decIn 7)).host = .command 0x1000 :: [.command 0x4000] := by decide
theorem witness_DivsThenEncfIsEncf : (tiny .encDiv 4 0 false [23]).Inv ∧ 1 ≤ ndigits (tiny .encDiv 4).acc :=
  ⟨witness_inv_encDiv_room, by decide⟩

theorem lead0_of_zeros (k : Nat) : lead0 (List.replicate k 0) = k := by simp [lead0]

theorem witness_EncodeCommandsComputeEnc :
    (Config.mk 1).Legal ∧ ([0, 0xFF] : List Byte).length - lead0 [0, 0xFF] ≤ 1 ∧
      lead0 (List.replicate 65535 0) ≤ 65535 :=
  ⟨by decide, by decide, Nat.le_of_eq (lead0_of_zeros 65535)⟩
theorem witness_EncodeThatDoesNotFitFaults :
    (lead0 [0, 1, 2] ≤ 65535 ∧ ([0, 1, 2] : List Byte)[lead0 [0, 1, 2] + 1]? = some 2) ∧
      65535 < lead0 (List.replicate 65536 0) :=
  ⟨by decide, Nat.lt_of_lt_of_eq (by decide) (lead0_of_zeros 65536).symm⟩
theorem witness_DecodeCommandsComputeDec :
    ([0x31, 0x35, 0x51] : List Byte).map digitOf = ([0, 4, 23] : List Digit).map some ∧ val58 [0, 4, 23] < 256 ^ 1 ∧
      lead1 [0x31, 0x35, 0x51] ≤ 65535 := by decide
theorem witness_DecodeFailsAtFirstInvalidCharacter :
    ([0x31, 0x35, 0x51] : List Byte).map digitOf = ([0, 4, 23] : List Digit).map some ∧
      digitOf 0x6C = none := by decide
theorem witness_DecodePadCountIsTheScan :
    ([0x31, 0x31] : List Byte).map digitOf = ([0, 0] : List Digit).map some ∧ val58 [0, 0] < 256 ^ 1 ∧
      lead1 [0x31, 0x31] ≤ 65535 := by decide
theorem witness_PseudoInstructionsAreEncAndDec :
    faulted.cfg.Legal ∧ ([0, 0x61] : List Byte).length - lead0 [0, 0x61] ≤ faulted.cfg.accBytes ∧
      ([0x31, 0x32] : List Byte).map digitOf = ([0, 1] : List Digit).map some ∧
      dec [0x31, 0x32] = .ok [0, 1] ∧ digitOf 0x6C = none := by decide
theorem witness_MinimalSequencesAndLengths : 255 < 256 ^ 1 ∧ 57 < 58 ^ 1 := by decide
theorem witness_DecIsPadThenBytes : ([0x31] : List Byte).map digitOf = ([0] : List Digit).map some := by decide
theorem witness_EncOfDecIsTheStringButForAllOnes :
    ([0x31, 0x32] : List Byte).map digitOf = ([0, 1] : List Digit).map some ∧
      ∃ x ∈ ([0x31, 0x32] : List Byte), x ≠ alpha 0 := by decide
theorem witness_LengthsOfEncAndDec :
    ([0x31, 0x32] : List Byte) ≠ [] ∧ ([0x31, 0x32] : List Byte).map digitOf = ([0, 1] : List Digit).map some ∧
      dec [0x31, 0x32] = .ok [0, 1] := by decide
theorem witness_OnlyAlphabetCharactersAppear :
    (0x67 : Byte) ∈ enc [0x61] ∧ dec [0x32, 0x67] = .ok [0x61] ∧ enc [0x61] = enc [0x61] := by decide
theorem witness_AlphabetAndItsInverse : alpha 57 = 0x7A ∧ ∀ d : Digit, alpha d ≠ 0x30 := by decide
theorem witness_StackDepthIsTheLeastThatHoldsTheDigits :
    (Config.mk 1).Legal ∧ 256 ^ 1 ≤ 58 ^ 2 ∧ dstkDepth ⟨1⟩ = 2 := by decide
theorem witness_ByteShiftIsTimes256PlusByte : 1 ≤ 1 ∧ 255 < 256 ^ 1 := by decide
theorem witness_ByteSerialDivisionIsDivisionBy58 : 65535 < 256 ^ 2 := by decide
theorem witness_ByteSerialMultiplyAddIsTimes58PlusDigit : 255 < 256 ^ 1 := by decide

end Sys2Proof.Tests
end

section
/-! PROOF. The depth S of the digit stack (spec/00_scope.md R6, spec/10_state.md R29). -/

namespace Sys2Proof.Machine

/-- The least depth, of A = 1: one digit has 58 values only, one byte already 256 (00_scope R6). -/
theorem two_le_dstkDepth {c : Config} (h : c.Legal) : 2 ≤ dstkDepth c := by
  by_contra hlt
  have hdepth : dstkDepth c ≤ 1 := by omega
  have hdigit : 256 ^ c.accBytes ≤ 58 ^ 1 := (dstkDepth_le_iff c 1).1 hdepth
  have hbyte : 256 ^ 1 ≤ 256 ^ c.accBytes := Nat.pow_le_pow_right (by decide) h.1
  omega

/-- Settles O53: `dstkDepth_le_iff` makes S the least depth, and the ends A = 1 and A = 4096 bound it. -/
theorem stackDepthIsTheLeastThatHoldsTheDigits : Obligations.StackDepthIsTheLeastThatHoldsTheDigits := by
  intro c hc
  have hholds : 256 ^ c.accBytes ≤ 58 ^ dstkDepth c := (dstkDepth_le_iff c _).1 (Nat.le_refl _)
  have hleast : ∀ k, 256 ^ c.accBytes ≤ 58 ^ k → dstkDepth c ≤ k := fun k => (dstkDepth_le_iff c k).2
  exact ⟨hholds, hleast, two_le_dstkDepth hc, dstkDepth_le hc⟩

end Sys2Proof.Machine
end

section
/-! PROOF. What one step can do, said once (spec/30_encoding.md R70, R75; spec/60_exceptions.md R176 to R185): every
claim about a step is a case split along these lemmas. -/

namespace Sys2Proof

/-! ## The word of a decoded command (R66, R68) -/

theorem encodeZ_of_decodeZ {w : CmdWord} {i j : Instr} (h : decodeZ w i = .ok j) :
    i = j ∧ encodeZ (fieldOp w) = w := by
  unfold decodeZ at h
  split at h
  next harg =>
    refine ⟨Except.ok.inj h, BitVec.eq_of_toNat_eq ?_⟩
    have := congrArg BitVec.toNat harg
    rw [fieldArg_toNat] at this
    simp [encodeZ_toNat, fieldOp_toNat] at this ⊢
    omega
  next => cases h

theorem encodeB_of_decodeB {w : CmdWord} {mk : Byte → Instr} {j : Instr} (h : decodeB w mk = .ok j) :
    mk (fieldLow w) = j ∧ encodeB (fieldOp w) (fieldLow w) = w := by
  unfold decodeB at h
  split at h
  next hupper =>
    refine ⟨Except.ok.inj h, BitVec.eq_of_toNat_eq ?_⟩
    have := congrArg BitVec.toNat hupper
    rw [fieldUpper_toNat] at this
    simp [encodeB_toNat, fieldOp_toNat, fieldLow_toNat] at this ⊢
    omega
  next => cases h

theorem encodeX_fields (w : CmdWord) : encodeX (fieldOp w) (fieldArg w).toNat = w := by
  apply BitVec.eq_of_toNat_eq
  rw [encodeX_toNat, fieldOp_toNat, fieldArg_toNat]
  omega

theorem fieldOp_eq {w : CmdWord} {n : Nat} (h : (fieldOp w).toNat = n) : BitVec.ofNat 4 n = fieldOp w := by
  rw [← h, BitVec.ofNat_toNat, BitVec.setWidth_eq]

/-- A word that decodes is the word of its command. -/
theorem encode_of_decode {w : CmdWord} {i : Instr} (h : decode w = .ok i) : encode i = w := by
  unfold decode at h
  split at h
  case h_1 hop | h_2 hop | h_4 hop | h_5 hop | h_6 hop | h_8 hop | h_9 hop =>
    obtain ⟨rfl, hw⟩ := encodeZ_of_decodeZ h
    exact (congrArg encodeZ (fieldOp_eq hop)).trans hw
  case h_3 hop | h_7 hop | h_11 hop =>
    obtain ⟨rfl, hw⟩ := encodeB_of_decodeB h
    exact (congrArg (encodeB · (fieldLow w)) (fieldOp_eq hop)).trans hw
  case h_10 hop | h_12 hop | h_13 hop | h_14 hop =>
    cases h
    exact (congrArg (encodeX · (fieldArg w).toNat) (fieldOp_eq hop)).trans (encodeX_fields w)
  case h_15 => cases h

end Sys2Proof

namespace Sys2Proof.Machine

/-! ## The step, by what the host presents (R70, R75) -/

theorem step_of_idleHost {s : State} (h : s.host = []) : step s = .next s := by
  simp [step, nextEvent_nil h, waitForHost]

theorem step_of_reset {s : State} {rest : List HostEvent} (h : s.host = .reset :: rest) :
    step s = .next (clearEngine { s with host := rest }) := by
  simp [step, nextEvent_cons h, takeReset]

theorem step_of_decode_ok {s : State} {w : CmdWord} {rest : List HostEvent} {i : Instr}
    (h : s.host = .command w :: rest) (hi : decode w = .ok i) : step s = exec i { s with host := rest } := by
  simp [step, nextEvent_cons h, hi]

theorem step_of_decode_error {s : State} {w : CmdWord} {rest : List HostEvent} {e : IllegalWord}
    (h : s.host = .command w :: rest) (he : decode w = .error e) :
    step s = .next (takeIllegal w { s with host := rest }) := by
  simp [step, nextEvent_cons h, he]

/-- No step stops. -/
theorem step_total (s : State) : ∃ t, step s = .next t := by
  rcases hh : s.host with _ | ⟨⟨w⟩ | _, rest⟩
  · exact ⟨_, step_of_idleHost hh⟩
  · cases hw : decode w with
    | ok i => rw [step_of_decode_ok hh hw]; exact exec_total i _
    | error e => exact ⟨_, step_of_decode_error hh hw⟩
  · exact ⟨_, step_of_reset hh⟩

theorem runSteps_total (k : Nat) (s : State) : ∃ t, runSteps k s = .next t := by
  induction k generalizing s with
  | zero => exact ⟨s, rfl⟩
  | succ k ih =>
    obtain ⟨u, hu⟩ := step_total s
    rw [runSteps_succ hu]
    exact ih u

/-! ## The two pops, clause by clause (42_encode R114, 43_decode R133) -/

theorem performPopc_of_pad {s : State} (h : s.pad ≠ 0) :
    performPopc s = respond true (dataOfByte (alpha 0)) { s with pad := s.pad - 1 } :=
  if_pos h

theorem performPopc_of_top {s : State} {below : List Digit} {top : Digit} (hp : s.pad = 0)
    (hd : s.dstk = below ++ [top]) :
    performPopc s = respond true (dataOfByte (alpha top)) { s with dstk := below } := by
  simp [performPopc, hp, hd]

theorem performPopc_of_empty {s : State} (hp : s.pad = 0) (hd : s.dstk = []) :
    performPopc s = respond false 0 s := by
  simp [performPopc, hp, hd]

theorem performPopb_of_pad {s : State} (h : s.pad ≠ 0) :
    performPopb s = respond true 0 { s with pad := s.pad - 1 } :=
  if_pos h

theorem performPopb_of_byte {s : State} (hp : s.pad = 0) (ho : s.oidx ≠ 0) :
    performPopb s =
      respond true (dataOfByte (accByte s.acc (s.oidx - 1).toNat)) { s with oidx := s.oidx - 1 } :=
  (if_neg (not_not.2 hp)).trans (if_pos ho)

theorem performPopb_of_empty {s : State} (hp : s.pad = 0) (ho : s.oidx = 0) :
    performPopb s = respond false 0 s := by
  simp [performPopb, hp, ho]

/-! ## What a performed command does to the components -/

/-- `Effect i s u`: performed in `s`, the command `i` leaves the components as they are in `u`; the response is left
out. One constructor per clause of the commands' rules, with the clause's guards. -/
inductive Effect : Instr → State → State → Prop
  | read {i s} (hi : isReadOnly i = true) : Effect i s s
  | clear {s} : Effect .clr s (clearEngine s)
  | countZeroByte {s} (hp : s.phase = .idle ∨ s.phase = .encIn) (hl : s.lead = true) (hpad : s.pad ≠ 65535) :
      Effect (.encb 0) s { s with pad := s.pad + 1, phase := .encIn }
  | shiftInByte {b s} (hp : s.phase = .idle ∨ s.phase = .encIn) (hl : ¬ (s.lead = true ∧ b = 0))
      (hfit : s.acc < 256 ^ (s.cfg.accBytes - 1)) :
      Effect (.encb b) s { s with lead := false, acc := s.acc * 256 + b.toNat, phase := .encIn }
  | divideOnce {s} (hp : s.phase = .idle ∨ s.phase = .encIn ∨ s.phase = .encDiv)
      (hroom : s.dstk.length ≠ dstkDepth s.cfg) :
      Effect .divs s { divStep s with phase := .encDiv }
  | divideToEnd {s} (hp : s.phase = .idle ∨ s.phase = .encIn ∨ s.phase = .encDiv)
      (hroom : s.dstk.length + ndigits s.acc ≤ dstkDepth s.cfg) :
      Effect .encf s
        { s with
          acc := 0, rem := (digitsMin s.acc).headD s.rem, dstk := s.dstk ++ (digitsMin s.acc).reverse,
          phase := .encOut }
  | popPadChar {s} (hp : s.phase = .encOut) (hpad : s.pad ≠ 0) : Effect .popc s { s with pad := s.pad - 1 }
  | popDigit {s below top} (hp : s.phase = .encOut) (hpad : s.pad = 0) (hd : s.dstk = below ++ [top]) :
      Effect .popc s { s with dstk := below }
  | popNoChar {s} (hp : s.phase = .encOut) (hpad : s.pad = 0) (hd : s.dstk = []) : Effect .popc s s
  | countOneChar {c s} (hp : s.phase = .idle ∨ s.phase = .decIn) (hc : digitOf c = some 0) (hl : s.lead = true)
      (hpad : s.pad ≠ 65535) :
      Effect (.decc c) s { s with pad := s.pad + 1, phase := .decIn }
  | addDigit {c d s} (hp : s.phase = .idle ∨ s.phase = .decIn) (hc : digitOf c = some d)
      (hl : ¬ (s.lead = true ∧ d = 0)) (hfit : s.acc * 58 + d.val < 256 ^ s.cfg.accBytes) :
      Effect (.decc c) s { s with lead := false, acc := s.acc * 58 + d.val, phase := .decIn }
  | finishDecode {s} (hp : s.phase = .idle ∨ s.phase = .decIn) :
      Effect .decf s
        { s with
          pad := if s.lead ∧ s.pad ≠ 0 then s.pad - 1 else s.pad
          oidx := BitVec.ofNat 16 (bytelen s.acc)
          phase := .decOut }
  | popPadByte {s} (hp : s.phase = .decOut) (hpad : s.pad ≠ 0) : Effect .popb s { s with pad := s.pad - 1 }
  | popByte {s} (hp : s.phase = .decOut) (hpad : s.pad = 0) (ho : s.oidx ≠ 0) :
      Effect .popb s { s with oidx := s.oidx - 1 }
  | popNoByte {s} (hp : s.phase = .decOut) (hpad : s.pad = 0) (ho : s.oidx = 0) : Effect .popb s s

/-! ## What the meaning of a command does -/

/-- All a command can end in: refused in FAULT, a fault taken, or performed and answered. -/
inductive ExecResult (i : Instr) (s : State) : State → Prop
  | refused (hf : s.phase = .fault) : ExecResult i s (withRefusal s)
  | faulted (hf : s.phase ≠ .fault) (c : Cause) : ExecResult i s (withFault c (fieldLow (encode i)) s)
  | performed {u} (ok : Bool) (d : Data) (hu : Effect i s u) : ExecResult i s (respond ok d u)

theorem execResult_raise {i : Instr} {s : State} (hf : s.phase ≠ .fault) (c : Cause) :
    ExecResult i s (raise c (encode i) s) := by
  rw [raise_eq_withFault]
  exact .faulted hf c

theorem execResult_answerRead {i : Instr} (hi : isReadOnly i = true) (entry : Option Data) (s : State) :
    ExecResult i s (answerRead entry s) := by
  cases entry with
  | none => exact .performed false 0 (.read hi)
  | some d => exact .performed true d (.read hi)

/-- The front of a stateful command leaves only the phases in which it is performed. -/
theorem execResult_stateful {i : Instr} {f : State → State} {s : State}
    (h : s.phase ≠ .fault → s.phase ∈ legalPhases i → ExecResult i s (f s)) :
    ExecResult i s (stateful i f s) := by
  obtain ⟨hf, heq⟩ | ⟨hf, -, heq⟩ | ⟨hf, hl, heq⟩ := stateful_cases i f s <;> rw [heq]
  · exact .refused hf
  · exact .faulted hf .eproto
  · exact h hf hl

theorem execResult_performEncb {b : Byte} {s : State} (hp : s.phase = .idle ∨ s.phase = .encIn)
    (hf : s.phase ≠ .fault) : ExecResult (.encb b) s (performEncb b s) := by
  unfold performEncb
  split_ifs with hz hpad hcap
  · exact execResult_raise hf _
  · obtain ⟨hl, rfl⟩ := hz
    exact .performed _ _ (.countZeroByte hp hl hpad)
  · exact execResult_raise hf _
  · exact .performed _ _ (.shiftInByte hp hz (Nat.not_le.1 hcap))

theorem execResult_performDivs {s : State} (hp : s.phase = .idle ∨ s.phase = .encIn ∨ s.phase = .encDiv)
    (hf : s.phase ≠ .fault) : ExecResult .divs s (performDivs s) := by
  unfold performDivs
  split_ifs with hfull
  · exact execResult_raise hf _
  · exact .performed _ _ (.divideOnce hp hfull)

theorem execResult_performEncf {s : State} (hp : s.phase = .idle ∨ s.phase = .encIn ∨ s.phase = .encDiv)
    (hf : s.phase ≠ .fault) : ExecResult .encf s (performEncf s) := by
  unfold performEncf
  split_ifs with hfull
  · exact execResult_raise hf _
  · rw [divLoop_eq _ s rfl]
    exact .performed _ _ (.divideToEnd hp (Nat.not_lt.1 hfull))

theorem execResult_performPopc {s : State} (hp : s.phase = .encOut) : ExecResult .popc s (performPopc s) := by
  by_cases hpad : s.pad = 0
  · obtain hd | ⟨below, top, hd⟩ := List.eq_nil_or_concat' s.dstk
    · rw [performPopc_of_empty hpad hd]
      exact .performed _ _ (.popNoChar hp hpad hd)
    · rw [performPopc_of_top hpad hd]
      exact .performed _ _ (.popDigit hp hpad hd)
  · rw [performPopc_of_pad hpad]
    exact .performed _ _ (.popPadChar hp hpad)

theorem execResult_performDecc {c : Byte} {s : State} (hp : s.phase = .idle ∨ s.phase = .decIn)
    (hf : s.phase ≠ .fault) : ExecResult (.decc c) s (performDecc c s) := by
  unfold performDecc
  cases hc : digitOf c with
  | none => exact execResult_raise hf _
  | some d =>
    dsimp only
    split_ifs with hz hpad hcap
    · exact execResult_raise hf _
    · obtain ⟨hl, rfl⟩ := hz
      exact .performed _ _ (.countOneChar hp hc hl hpad)
    · exact execResult_raise hf _
    · exact .performed _ _ (.addDigit hp hc hz (Nat.not_le.1 hcap))

theorem execResult_performPopb {s : State} (hp : s.phase = .decOut) : ExecResult .popb s (performPopb s) := by
  by_cases hpad : s.pad = 0
  · by_cases ho : s.oidx = 0
    · rw [performPopb_of_empty hpad ho]
      exact .performed _ _ (.popNoByte hp hpad ho)
    · rw [performPopb_of_byte hpad ho]
      exact .performed _ _ (.popByte hp hpad ho)
  · rw [performPopb_of_pad hpad]
    exact .performed _ _ (.popPadByte hp hpad)

/-- The inversion of the dispatch. -/
theorem exec_cases {i : Instr} {s t : State} (h : exec i s = .next t) : ExecResult i s t := by
  cases i with (cases h)
  | nop => exact .performed _ _ (.read rfl)
  | clr => exact .performed _ _ .clear
  | encb b => exact execResult_stateful fun hf hl => execResult_performEncb (by simpa [legalPhases] using hl) hf
  | divs => exact execResult_stateful fun hf hl => execResult_performDivs (by simpa [legalPhases] using hl) hf
  | encf => exact execResult_stateful fun hf hl => execResult_performEncf (by simpa [legalPhases] using hl) hf
  | popc => exact execResult_stateful fun _ hl => execResult_performPopc (by simpa [legalPhases] using hl)
  | decc c => exact execResult_stateful fun hf hl => execResult_performDecc (by simpa [legalPhases] using hl) hf
  | decf =>
    exact execResult_stateful fun _ hl => .performed _ _ (.finishDecode (by simpa [legalPhases] using hl))
  | popb => exact execResult_stateful fun _ hl => execResult_performPopb (by simpa [legalPhases] using hl)
  | luta idx => exact execResult_answerRead rfl _ s
  | lutv c => exact .performed _ _ (.read rfl)
  | rdsr idx => exact execResult_answerRead rfl _ s
  | rdab idx => exact execResult_answerRead rfl _ s
  | rdds idx => exact execResult_answerRead rfl _ s

/-! ## What a step does -/

/-- All a step can end in. -/
inductive StepResult (s : State) : State → Prop
  | waits (hh : s.host = []) : StepResult s s
  | resets {rest} (hh : s.host = .reset :: rest) : StepResult s (clearEngine { s with host := rest })
  | refused {w rest} (hh : s.host = .command w :: rest) (hf : s.phase = .fault) :
      StepResult s (withRefusal { s with host := rest })
  | faulted {w rest} (hh : s.host = .command w :: rest) (hf : s.phase ≠ .fault) (c : Cause) :
      StepResult s (withFault c (fieldLow w) { s with host := rest })
  | performed {i rest u} (hh : s.host = .command (encode i) :: rest) (ok : Bool) (d : Data)
      (hu : Effect i { s with host := rest } u) : StepResult s (respond ok d u)

/-- The inversion of the step. -/
theorem step_cases {s t : State} (h : step s = .next t) : StepResult s t := by
  rcases hh : s.host with _ | ⟨⟨w⟩ | _, rest⟩
  · cases (step_of_idleHost hh).symm.trans h
    exact .waits hh
  · cases hw : decode w with
    | ok i =>
      obtain rfl := encode_of_decode hw
      cases exec_cases ((step_of_decode_ok hh hw).symm.trans h) with
      | refused hf => exact .refused hh hf
      | faulted hf c => exact .faulted hh hf c
      | performed ok d hu => exact .performed hh ok d hu
    | error e =>
      cases (step_of_decode_error hh hw).symm.trans h
      obtain ⟨hf, heq⟩ | ⟨hf, heq⟩ := takeIllegal_cases w { s with host := rest } <;> rw [heq]
      · exact .refused hh hf
      · exact .faulted hh hf .eill
  · cases (step_of_reset hh).symm.trans h
    exact .resets hh

end Sys2Proof.Machine
end

section
/-! PROOF. The invariants hold at reset and every step keeps them (spec/10_state.md R33; spec/42_encode.md R117). -/

namespace Sys2Proof.Machine

/-! ## What the invariants give in the phases of the commands -/

theorem State.Inv.err_none {s : State} (h : s.Inv) (hp : s.phase ≠ .fault) : s.err = none := by
  simpa [hp] using h.fault_iff

/-- A command that is performed outside FAULT and ends outside FAULT records no fault. -/
theorem State.Inv.fault_iff_after {s : State} (h : s.Inv) (hs : s.phase ≠ .fault) {q : Phase} (hq : q ≠ .fault) :
    q = .fault ↔ s.err ≠ none := by
  simp [hq, h.err_none hs]

/-- Nothing is on the stack or selected for output before the input has ended. -/
theorem State.Inv.no_output {s : State} (h : s.Inv) (hp : s.phase = .idle ∨ s.phase = .encIn ∨ s.phase = .decIn) :
    s.dstk = [] ∧ s.oidx = 0 := by
  obtain hp | hp := hp
  · obtain ⟨-, -, -, -, hd, ho, -, -⟩ := h.idle hp
    exact ⟨hd, ho⟩
  · exact h.input hp

/-- R117: the stack has room for the digits of a non-zero ACC wherever a division can go on. -/
theorem State.Inv.room {s : State} (h : s.Inv) (hp : s.phase = .idle ∨ s.phase = .encIn ∨ s.phase = .encDiv)
    (ha : s.acc ≠ 0) : s.dstk.length + ndigits s.acc ≤ dstkDepth s.cfg := by
  have hempty (hin : s.phase = .idle ∨ s.phase = .encIn ∨ s.phase = .decIn) :
      s.dstk.length + ndigits s.acc ≤ dstkDepth s.cfg := by
    simpa [(h.no_output hin).1] using ndigits_le_dstkDepth h.acc_lt
  obtain hp | hp | hp := hp
  · exact hempty (.inl hp)
  · exact hempty (.inr (.inl hp))
  · exact h.dividing hp ha

/-- OIDX holds any byte length of ACC in its 16 bits. -/
theorem bytelen_toNat {c : Config} {n : Nat} (hc : c.Legal) (hn : n < 256 ^ c.accBytes) :
    (BitVec.ofNat 16 (bytelen n)).toNat = bytelen n := by
  have hlen : bytelen n ≤ c.accBytes := (bytelen_le_iff n _).2 hn
  have hA : c.accBytes ≤ 4096 := hc.2
  rw [BitVec.toNat_ofNat, Nat.mod_eq_of_lt (by omega)]

/-- A byte shifted into an accumulator whose top byte is free fits (R111, R115). -/
theorem shiftIn_lt {c : Config} {n : Nat} (hc : c.Legal) (hn : n < 256 ^ (c.accBytes - 1)) (b : Byte) :
    n * 256 + b.toNat < 256 ^ c.accBytes := by
  have hA : c.accBytes = c.accBytes - 1 + 1 := by have := hc.1; omega
  have hb := b.isLt
  rw [hA, Nat.pow_succ]
  omega

/-! ## Channels, answers and the reset state -/

/-- The invariants speak of the engine, not of its channels. -/
theorem State.Inv.channels {s : State} (h : s.Inv) (host : List HostEvent) (rsp : List RspWord) :
    State.Inv { s with host := host, rsp := rsp } :=
  { h with }

theorem State.Inv.withFault {s : State} (h : s.Inv) (c : Cause) (low : Byte) : (withFault c low s).Inv :=
  { h with
    fault_iff := by simp [Machine.withFault, answerWith]
    errch_zero := by simp [Machine.withFault, answerWith]
    idle := nofun
    input := nofun
    dividing := nofun
    encOut := nofun
    decOut := nofun }

theorem inv_freshEngine {c : Config} (hc : c.Legal) (events : List HostEvent) (before : List RspWord) :
    (freshEngine c events before).Inv where
  legal := hc
  acc_lt := Nat.pow_pos (by decide)
  sp_le := Nat.zero_le _
  oidx_le := Nat.zero_le _
  fault_iff := by simp [freshEngine, State.resetOf]
  errch_zero _ := rfl
  lead_acc _ := rfl
  idle _ := ⟨rfl, rfl, rfl, rfl, rfl, rfl, rfl, rfl⟩
  input _ := ⟨rfl, rfl⟩
  dividing := nofun
  encOut := nofun
  decOut := nofun

/-! ## A performed command -/

/-- The input phases: PAD, LEAD and ACC change, within the bound of ACC. -/
theorem State.Inv.input_update {s : State} (h : s.Inv) {q : Phase} (hq : q = .encIn ∨ q = .decIn)
    (hp : s.phase = .idle ∨ s.phase = q) {acc : Nat} {pad : BitVec 16} {lead : Bool}
    (hacc : acc < 256 ^ s.cfg.accBytes) (hlead : lead = true → acc = 0) :
    State.Inv { s with acc := acc, pad := pad, lead := lead, phase := q } := by
  obtain rfl | rfl := hq <;>
    exact { h with
      acc_lt := hacc
      fault_iff := h.fault_iff_after (fun hf => by simp [hf] at hp) nofun
      lead_acc := hlead
      idle := nofun
      input := fun _ => h.no_output (by tauto)
      dividing := nofun
      encOut := nofun
      decOut := nofun }

/-- The output phases: PAD changes, and SP and OIDX do not grow. -/
theorem State.Inv.output_update {s : State} (h : s.Inv) (hp : s.phase = .encOut ∨ s.phase = .decOut)
    {pad oidx : BitVec 16} {dstk : List Digit} (hd : dstk.length ≤ s.dstk.length)
    (ho : oidx.toNat ≤ s.oidx.toNat) : State.Inv { s with pad := pad, dstk := dstk, oidx := oidx } :=
  { h with
    sp_le := hd.trans h.sp_le
    oidx_le := ho.trans h.oidx_le
    idle := fun hi : s.phase = .idle => by simp [hi] at hp
    input := fun hi : s.phase = .encIn ∨ s.phase = .decIn => by rcases hi with hi | hi <;> simp [hi] at hp
    dividing := fun hi : s.phase = .encDiv => by simp [hi] at hp
    decOut := fun hi => ho.trans (h.decOut hi) }

theorem State.Inv.divideOnce {s : State} (h : s.Inv) (hp : s.phase = .idle ∨ s.phase = .encIn ∨ s.phase = .encDiv)
    (hroom : s.dstk.length ≠ dstkDepth s.cfg) : State.Inv { divStep s with phase := .encDiv } :=
  { h with
    acc_lt := (Nat.div_le_self s.acc 58).trans_lt h.acc_lt
    sp_le := by
      have hle := h.sp_le
      simp
      omega
    fault_iff := h.fault_iff_after (fun hf => by simp [hf] at hp) nofun
    lead_acc := fun hl => by simp [h.lead_acc hl]
    idle := nofun
    input := nofun
    dividing := fun _ (hq : s.acc / 58 ≠ 0) => by
      have ha : s.acc ≠ 0 := fun h0 => hq (by simp [h0])
      have hdigits := h.room hp ha
      rw [ndigits_step ha] at hdigits
      simp
      omega
    encOut := nofun
    decOut := nofun }

theorem State.Inv.divideToEnd {s : State} (h : s.Inv)
    (hp : s.phase = .idle ∨ s.phase = .encIn ∨ s.phase = .encDiv)
    (hroom : s.dstk.length + ndigits s.acc ≤ dstkDepth s.cfg) {rem : Digit} :
    State.Inv
      { s with acc := 0, rem := rem, dstk := s.dstk ++ (digitsMin s.acc).reverse, phase := .encOut } :=
  { h with
    acc_lt := Nat.pow_pos (by decide)
    sp_le := by simpa [digitsMin_length] using hroom
    fault_iff := h.fault_iff_after (fun hf => by simp [hf] at hp) nofun
    lead_acc := fun _ => rfl
    idle := nofun
    input := nofun
    dividing := nofun
    encOut := fun _ => rfl
    decOut := nofun }

theorem State.Inv.finishDecode {s : State} (h : s.Inv) (hp : s.phase = .idle ∨ s.phase = .decIn) {pad : BitVec 16} :
    State.Inv { s with pad := pad, oidx := BitVec.ofNat 16 (bytelen s.acc), phase := .decOut } :=
  have hlen := bytelen_toNat h.legal h.acc_lt
  { h with
    oidx_le := hlen.trans_le ((bytelen_le_iff _ _).2 h.acc_lt)
    fault_iff := h.fault_iff_after (fun hf => by simp [hf] at hp) nofun
    idle := nofun
    input := nofun
    dividing := nofun
    encOut := nofun
    decOut := fun _ => hlen.le }

theorem Effect.inv {i : Instr} {s u : State} (hu : Effect i s u) (h : s.Inv) : u.Inv := by
  cases hu with
  | read => exact h
  | clear => exact inv_freshEngine h.legal s.host s.rsp
  | countZeroByte hp => exact h.input_update (.inl rfl) hp h.acc_lt h.lead_acc
  | shiftInByte hp _ hfit => exact h.input_update (.inl rfl) hp (shiftIn_lt h.legal hfit _) nofun
  | divideOnce hp hroom => exact h.divideOnce hp hroom
  | divideToEnd hp hroom => exact h.divideToEnd hp hroom
  | popPadChar hp => exact h.output_update (.inl hp) le_rfl le_rfl
  | popDigit hp _ hd => exact h.output_update (.inl hp) (by simp [hd]) le_rfl
  | popNoChar => exact h
  | countOneChar hp => exact h.input_update (.inr rfl) hp h.acc_lt h.lead_acc
  | addDigit hp _ _ hfit => exact h.input_update (.inr rfl) hp hfit nofun
  | finishDecode hp => exact h.finishDecode hp
  | popPadByte hp => exact h.output_update (.inr hp) le_rfl le_rfl
  | popByte hp _ ho => exact h.output_update (.inr hp) le_rfl (by bv_omega)
  | popNoByte => exact h

theorem StepResult.inv {s t : State} (ht : StepResult s t) (h : s.Inv) : t.Inv := by
  cases ht with
  | waits => exact h
  | @resets rest => exact inv_freshEngine h.legal rest s.rsp
  | @refused w rest => exact h.channels rest _
  | @faulted w rest _ _ c => exact (h.channels rest s.rsp).withFault c _
  | @performed i rest u _ ok d hu =>
    have hu' := hu.inv (h.channels rest s.rsp)
    exact hu'.channels u.host _

/-- Settles O32: the reset state is a fresh engine with empty channels. -/
theorem invariantHoldsAtReset : Obligations.InvariantHoldsAtReset :=
  fun _ hc => inv_freshEngine hc [] []

/-- Settles O33: each way a step can end (`step_cases`) keeps the invariants. -/
theorem stepKeepsTheInvariant : Obligations.StepKeepsTheInvariant :=
  fun _ _ hs hstep => (step_cases hstep).inv hs

end Sys2Proof.Machine
end

section
/-! PROOF. The reset values, the alphabet, and what ORDY tells of the pops (spec/10_state.md R22, R31, R32, R34). -/

namespace Sys2Proof.Machine

/-! ## The reset values (R34) -/

theorem atReset_freshEngine (c : Config) (events : List HostEvent) (before : List RspWord) :
    atReset (freshEngine c events before) :=
  ⟨rfl, rfl, rfl, rfl, rfl, rfl, rfl, rfl, rfl⟩

/-- Z and LEAD are 1 in the reset state (log 20). -/
theorem statusByte_clearEngine (s : State) : statusByte (clearEngine s) = 0x18 :=
  BitVec.eq_of_toNat_eq ((statusByte_toNat _).trans rfl)

theorem respond_clearEngine (s : State) :
    respond true 0 (clearEngine s) = freshEngine s.cfg s.host (s.rsp ++ [0x01180000]) := by
  have hword : responseWord true 0x18 0 = 0x01180000 := by decide
  rw [← hword, ← statusByte_clearEngine s]
  rfl

/-- Settles O8: reset and CLR both leave a fresh engine, whose NOP answers as `respond_clearEngine` says. -/
theorem resetAndClrLeaveTheResetValues : Obligations.ResetAndClrLeaveTheResetValues := by
  refine ⟨fun c _ => ⟨rfl, atReset_freshEngine c [] []⟩, fun s rest hh => ?_, fun s => ?_⟩
  · refine ⟨_, step_of_reset hh, rfl, atReset_freshEngine s.cfg rest s.rsp, _, rfl, ?_⟩
    rw [respond_clearEngine]
    rfl
  · exact ⟨_, rfl, rfl, atReset_freshEngine s.cfg s.host _⟩

/-! ## The alphabet and INV (R31, R32) -/

theorem alpha_toNat : ∀ d : Digit, (alpha d).toNat = alphaCode d.val := by decide

/-- INV holds a digit exactly at the character of that digit: elsewhere its entry is 64. -/
theorem invEntry_eq_digit_iff (c : Byte) (d : Digit) : invEntry c = BitVec.ofNat 7 d.val ↔ alpha d = c := by
  have hd := d.isLt
  rw [← BitVec.toNat_inj, invEntry_toNat, BitVec.toNat_ofNat, Nat.mod_eq_of_lt (by omega)]
  constructor
  · intro h
    cases hc : digitOf c with
    | none => simp [hc] at h; omega
    | some e =>
      obtain rfl : e = d := Fin.ext (by simpa [hc] using h)
      exact alpha_of_digitOf hc
  · rintro rfl
    simp [digitOf_alpha]

/-- Settles O52: `invEntry_eq_digit_iff` makes INV the inverse, and a code with no digit has the entry 64. -/
theorem alphabetAndItsInverse : Obligations.AlphabetAndItsInverse := by
  refine ⟨alpha_toNat, fun _ _ => alpha_injective, fun c d => (invEntry_eq_digit_iff c d).symm, fun c hc => ?_⟩
  apply BitVec.eq_of_toNat_eq
  simp [invEntry_toNat, (digitOf_eq_none_iff c).2 hc]

/-! ## ORDY and the pops (R22) -/

/-- ORDY is bit 5 of STATUS (R24). -/
theorem statusNumber_ordy_iff (s : State) : statusNumber s / 32 % 2 = 1 ↔ flagORDY s = true := by
  have hp : phaseNumber s.phase ≤ 7 := by cases s.phase <;> decide
  rw [flagORDY_iff]
  unfold statusNumber
  split_ifs <;> simp [*] <;> omega

/-- What an answer adds to the responses, and its OK. -/
theorem respond_adds_ok (ok : Bool) (d : Data) (s : State) :
    ∃ r, (respond ok d s).rsp = s.rsp ++ [r] ∧ (responseView r).1 = ok := by
  rw [respond_eq_answerWith]
  exact ⟨_, rfl, congrArg Prod.fst (responseView_answer ok d.toNat s d.isLt)⟩

theorem flagORDY_of_encOut {s : State} (hp : s.phase = .encOut) :
    flagORDY s = true ↔ s.pad ≠ 0 ∨ s.dstk ≠ [] := by
  simp [flagORDY, hp, State.sp]

theorem flagORDY_of_decOut {s : State} (hp : s.phase = .decOut) :
    flagORDY s = true ↔ s.pad ≠ 0 ∨ s.oidx ≠ 0 := by
  simp [flagORDY, hp]

/-- A pop that answers with ORDY as its OK tells by OK whether bit 5 of STATUS was 1. -/
theorem ok_iff_statusNumber {s t : State} (h : ∃ d u, t = respond (flagORDY s) d u ∧ u.rsp = s.rsp) :
    ∃ r, t.rsp = s.rsp ++ [r] ∧ ((responseView r).1 = true ↔ statusNumber s / 32 % 2 = 1) := by
  obtain ⟨d, u, rfl, hrsp⟩ := h
  obtain ⟨r, hr, hok⟩ := respond_adds_ok (flagORDY s) d u
  exact ⟨r, hrsp ▸ hr, by rw [hok, statusNumber_ordy_iff]⟩

theorem performPopc_answers_ordy {s : State} (hp : s.phase = .encOut) :
    ∃ d u, performPopc s = respond (flagORDY s) d u ∧ u.rsp = s.rsp := by
  by_cases hpad : s.pad = 0
  · obtain hd | ⟨below, top, hd⟩ := List.eq_nil_or_concat' s.dstk
    · have hordy : flagORDY s = false := by simpa [hpad, hd] using flagORDY_of_encOut hp
      exact hordy ▸ ⟨_, _, performPopc_of_empty hpad hd, rfl⟩
    · have hordy : flagORDY s = true := (flagORDY_of_encOut hp).2 (.inr (by simp [hd]))
      exact hordy ▸ ⟨_, _, performPopc_of_top hpad hd, rfl⟩
  · have hordy : flagORDY s = true := (flagORDY_of_encOut hp).2 (.inl hpad)
    exact hordy ▸ ⟨_, _, performPopc_of_pad hpad, rfl⟩

theorem performPopb_answers_ordy {s : State} (hp : s.phase = .decOut) :
    ∃ d u, performPopb s = respond (flagORDY s) d u ∧ u.rsp = s.rsp := by
  by_cases hpad : s.pad = 0
  · by_cases ho : s.oidx = 0
    · have hordy : flagORDY s = false := by simpa [hpad, ho] using flagORDY_of_decOut hp
      exact hordy ▸ ⟨_, _, performPopb_of_empty hpad ho, rfl⟩
    · have hordy : flagORDY s = true := (flagORDY_of_decOut hp).2 (.inr ho)
      exact hordy ▸ ⟨_, _, performPopb_of_byte hpad ho, rfl⟩
  · have hordy : flagORDY s = true := (flagORDY_of_decOut hp).2 (.inl hpad)
    exact hordy ▸ ⟨_, _, performPopb_of_pad hpad, rfl⟩

theorem exec_popc_of_encOut {s : State} (hp : s.phase = .encOut) : exec .popc s = .next (performPopc s) :=
  congrArg Host.Outcome.next (stateful_of_legal (by simp [hp]) (by simp [hp, legalPhases]))

theorem exec_popb_of_decOut {s : State} (hp : s.phase = .decOut) : exec .popb s = .next (performPopb s) :=
  congrArg Host.Outcome.next (stateful_of_legal (by simp [hp]) (by simp [hp, legalPhases]))

/-- Settles O31: in its output phase a pop answers with ORDY as its OK. -/
theorem ordyTellsWhetherThePopDelivers : Obligations.OrdyTellsWhetherThePopDelivers := by
  refine fun s => ⟨fun hp => ?_, fun hp => ?_⟩
  · obtain ⟨r, hr⟩ := ok_iff_statusNumber (performPopc_answers_ordy hp)
    exact ⟨_, r, exec_popc_of_encOut hp, hr⟩
  · obtain ⟨r, hr⟩ := ok_iff_statusNumber (performPopb_answers_ordy hp)
    exact ⟨_, r, exec_popb_of_decOut hp, hr⟩

end Sys2Proof.Machine
end

section
/-! PROOF. The digit on top of the stack when a division has ended (spec/10_state.md R33 item 6; log 19). -/

namespace Sys2Proof.Machine

/-! ## The top digit after a division -/

/-- The minimal digits of a number have no leading zero, so the digit a division pushes last is not 0. -/
theorem digitsMin_reverse_top {n : Nat} (h : n ≠ 0) :
    ∃ below top, (digitsMin n).reverse = below ++ [top] ∧ top ≠ 0 := by
  induction n using Nat.strong_induction_on with
  | _ n ih =>
    rw [digitsMin_step h, List.reverse_append]
    by_cases hq : n / 58 = 0
    · refine ⟨[], remDigit n, by simp [hq], fun h0 => h ?_⟩
      have hrem : n % 58 = 0 := congrArg Fin.val h0
      omega
    · obtain ⟨below, top, heq, htop⟩ := ih (n / 58) (Nat.div_lt_self (Nat.pos_of_ne_zero h) (by decide)) hq
      exact ⟨remDigit n :: below, top, by simp [heq], htop⟩

/-- A command that divides a non-zero ACC down to 0 leaves a non-zero digit on top. -/
theorem Effect.top_of_division {i : Instr} {s u : State} (hu : Effect i s u) (hi : i = .divs ∨ i = .encf)
    (hs : s.acc ≠ 0) (h0 : u.acc = 0) : ∃ below top, u.dstk = below ++ [top] ∧ top ≠ 0 := by
  obtain rfl | rfl := hi
  · cases hu with
    | read hi => cases hi
    | divideOnce =>
      refine ⟨s.dstk, remDigit s.acc, rfl, fun hr => hs ?_⟩
      have hquot : s.acc / 58 = 0 := h0
      have hrem : s.acc % 58 = 0 := congrArg Fin.val hr
      omega
  · cases hu with
    | read hi => cases hi
    | divideToEnd =>
      obtain ⟨below, top, heq, htop⟩ := digitsMin_reverse_top hs
      exact ⟨s.dstk ++ below, top, by simp [heq], htop⟩

/-- Settles O35: a refusal and a fault leave ACC as it was, so the command was performed. -/
theorem topDigitIsNotZeroWhenTheDivisionEnds : Obligations.TopDigitIsNotZeroWhenTheDivisionEnds := by
  intro s t _ _ hs hexec h0
  obtain ⟨i, hi, h⟩ : ∃ i, (i = .divs ∨ i = .encf) ∧ exec i s = .next t :=
    hexec.elim (fun h => ⟨_, .inl rfl, h⟩) fun h => ⟨_, .inr rfl, h⟩
  cases exec_cases h with
  | refused => exact absurd h0 hs
  | faulted => exact absurd h0 hs
  | performed _ _ hu => exact hu.top_of_division hi hs h0

/-! ## Steps that are neither a DIVS at Z = 1 nor a pop -/

theorem topDigitNotZero_of_eq {s : State} {below : List Digit} {top : Digit} (heq : s.dstk = below ++ [top])
    (htop : top ≠ 0) : topDigitNotZero s := by
  intro below' top' heq'
  obtain ⟨-, hlast⟩ := List.append_inj' (heq.symm.trans heq') rfl
  obtain rfl := List.singleton_inj.1 hlast
  exact htop

theorem topDigitNotZero_of_empty {s : State} (h : s.dstk = []) : topDigitNotZero s := by
  intro below top heq
  simp [h] at heq

/-- R33 item 6, second sentence, for one state: what the steps keep. -/
def CoreStringOk (s : State) : Prop := divisionEnded s → topDigitNotZero s

theorem coreStringOk_of_phase {s : State} (hdiv : s.phase ≠ .encDiv) (hout : s.phase ≠ .encOut) : CoreStringOk s :=
  fun hend => absurd hend (by simp [divisionEnded, hdiv, hout])

/-- Where ENCF finds nothing to divide, no digit has been pushed yet or the division has ended before. -/
theorem CoreStringOk.top_before_division {s : State} (h : CoreStringOk s) (hs : s.Inv)
    (hp : s.phase = .idle ∨ s.phase = .encIn ∨ s.phase = .encDiv) (ha : s.acc = 0) : topDigitNotZero s := by
  obtain hp | hp | hp := hp
  · exact topDigitNotZero_of_empty (hs.no_output (.inl hp)).1
  · exact topDigitNotZero_of_empty (hs.no_output (.inr (.inl hp))).1
  · exact h (.inl ⟨hp, ha⟩)

theorem Effect.coreStringOk {i : Instr} {s u : State} (hu : Effect i s u) (hs : s.Inv) (h : CoreStringOk s)
    (hdivs : i = .divs → s.acc ≠ 0) (hpop : i = .popc → s.phase ≠ .encOut) : CoreStringOk u := by
  have hdivision (hi : i = .divs ∨ i = .encf) (ha : s.acc ≠ 0) (h0 : u.acc = 0) : topDigitNotZero u := by
    obtain ⟨below, top, heq, htop⟩ := hu.top_of_division hi ha h0
    exact topDigitNotZero_of_eq heq htop
  cases hu with
  | read => exact h
  | clear => exact coreStringOk_of_phase nofun nofun
  | countZeroByte => exact coreStringOk_of_phase nofun nofun
  | shiftInByte => exact coreStringOk_of_phase nofun nofun
  | divideOnce =>
    rintro (⟨-, h0⟩ | hout)
    · exact hdivision (.inl rfl) (hdivs rfl) h0
    · cases hout
  | divideToEnd hp =>
    intro _
    by_cases ha : s.acc = 0
    · simpa [topDigitNotZero, ha] using h.top_before_division hs hp ha
    · exact hdivision (.inr rfl) ha rfl
  | popPadChar hp => exact absurd hp (hpop rfl)
  | popDigit hp => exact absurd hp (hpop rfl)
  | popNoChar hp => exact absurd hp (hpop rfl)
  | countOneChar => exact coreStringOk_of_phase nofun nofun
  | addDigit => exact coreStringOk_of_phase nofun nofun
  | finishDecode => exact coreStringOk_of_phase nofun nofun
  | popPadByte hp => exact coreStringOk_of_phase (by simp [hp]) (by simp [hp])
  | popByte hp => exact coreStringOk_of_phase (by simp [hp]) (by simp [hp])
  | popNoByte => exact h

theorem encode_divs : encode .divs = 0x3000 := by decide

theorem encode_popc : encode .popc = 0x5000 := by decide

theorem StepResult.coreStringOk {s t : State} (ht : StepResult s t) (hs : s.Inv) (h : CoreStringOk s)
    (hn : noIdleDivsNorPop s) : CoreStringOk t := by
  cases ht with
  | waits => exact h
  | resets => exact coreStringOk_of_phase nofun nofun
  | refused _ hf => exact coreStringOk_of_phase (ne_of_eq_of_ne hf nofun) (ne_of_eq_of_ne hf nofun)
  | faulted => exact coreStringOk_of_phase nofun nofun
  | @performed i rest u hh ok d hu =>
    obtain ⟨hdivs, hpop⟩ := hn rest
    exact hu.coreStringOk (hs.channels rest s.rsp) h (fun hi => hdivs (by rw [hh, hi, encode_divs]))
      fun hi => hpop (by rw [hh, hi, encode_popc])

theorem runSteps_coreStringOk {k : Nat} {s t : State} (hs : s.Inv) (h : CoreStringOk s)
    (hn : ∀ j u, j < k → runSteps j s = .next u → noIdleDivsNorPop u) (hrun : runSteps k s = .next t) :
    CoreStringOk t := by
  induction k generalizing s with
  | zero =>
    cases hrun
    exact h
  | succ k ih =>
    obtain ⟨u, hu⟩ := step_total s
    have hresult := step_cases hu
    refine ih (hresult.inv hs) (hresult.coreStringOk hs h (hn 0 s k.succ_pos rfl)) (fun j v hj hv => ?_)
      ((runSteps_succ hu).symm.trans hrun)
    exact hn (j + 1) v (Nat.succ_lt_succ hj) ((runSteps_succ hu).trans hv)

/-- Settles O58: one step by `step_cases`, a run by induction on its length from the fresh engine in IDLE. -/
theorem coreStringHasNoLeadingZeroDigit : Obligations.CoreStringHasNoLeadingZeroDigit :=
  ⟨fun _ _ hs h hn hstep => (step_cases hstep).coreStringOk hs h hn,
    fun _ events before _ _ hc hn hrun =>
      runSteps_coreStringOk (inv_freshEngine hc events before) (coreStringOk_of_phase nofun nofun) hn hrun⟩

end Sys2Proof.Machine
end

section
/-! PROOF. The engine's past does not matter after a CLR (spec/10_state.md R36): no meaning reads the responses given
before, so a run from a fresh engine gives the same responses whatever stands in front of them. -/

namespace Sys2Proof.Machine

/-- `s` with more responses given before its own. -/
def State.afterResponses (before : List RspWord) (s : State) : State := { s with rsp := before ++ s.rsp }

section

variable (before : List RspWord)

/-! ## The shared operations do not read the responses -/

theorem respond_afterResponses (ok : Bool) (d : Data) (s : State) :
    respond ok d (s.afterResponses before) = (respond ok d s).afterResponses before :=
  congrArg (fun r => { s with rsp := r }) (List.append_assoc _ _ _)

theorem raise_afterResponses (c : Cause) (w : CmdWord) (s : State) :
    raise c w (s.afterResponses before) = (raise c w s).afterResponses before :=
  respond_afterResponses before false _ { s with err := some c, errch := fieldLow w, phase := .fault }

theorem refuseInFault_afterResponses (s : State) :
    refuseInFault (s.afterResponses before) = (refuseInFault s).afterResponses before :=
  respond_afterResponses before _ _ s

theorem answerRead_afterResponses (entry : Option Data) (s : State) :
    answerRead entry (s.afterResponses before) = (answerRead entry s).afterResponses before := by
  cases entry <;> exact respond_afterResponses before _ _ s

theorem takeIllegal_afterResponses (w : CmdWord) (s : State) :
    takeIllegal w (s.afterResponses before) = (takeIllegal w s).afterResponses before := by
  unfold takeIllegal
  rw [apply_ite (State.afterResponses before), ← refuseInFault_afterResponses, ← raise_afterResponses]
  rfl

theorem stateful_afterResponses {f : State → State} (i : Instr) (s : State)
    (hf : f (s.afterResponses before) = (f s).afterResponses before) :
    stateful i f (s.afterResponses before) = (stateful i f s).afterResponses before := by
  unfold stateful
  rw [apply_ite (State.afterResponses before), apply_ite (State.afterResponses before),
    ← refuseInFault_afterResponses, ← raise_afterResponses, ← hf]
  rfl

/-! ## The commands do not read the responses -/

theorem performEncb_afterResponses (b : Byte) (s : State) :
    performEncb b (s.afterResponses before) = (performEncb b s).afterResponses before := by
  simp only [performEncb, apply_ite (State.afterResponses before), ← raise_afterResponses, ← respond_afterResponses]
  rfl

theorem performDivs_afterResponses (s : State) :
    performDivs (s.afterResponses before) = (performDivs s).afterResponses before := by
  simp only [performDivs, apply_ite (State.afterResponses before), ← raise_afterResponses, ← respond_afterResponses]
  rfl

theorem performEncf_afterResponses (s : State) :
    performEncf (s.afterResponses before) = (performEncf s).afterResponses before := by
  simp only [performEncf, divLoop_eq _ s rfl, divLoop_eq _ (s.afterResponses before) rfl,
    apply_ite (State.afterResponses before), ← raise_afterResponses, ← respond_afterResponses]
  rfl

theorem performPopc_afterResponses (s : State) :
    performPopc (s.afterResponses before) = (performPopc s).afterResponses before := by
  by_cases hpad : s.pad = 0
  · obtain hd | ⟨below, top, hd⟩ := List.eq_nil_or_concat' s.dstk
    · rw [performPopc_of_empty hpad hd, ← respond_afterResponses]
      exact performPopc_of_empty hpad hd
    · rw [performPopc_of_top hpad hd, ← respond_afterResponses]
      exact performPopc_of_top hpad hd
  · rw [performPopc_of_pad hpad, ← respond_afterResponses]
    exact performPopc_of_pad hpad

theorem performDecc_afterResponses (c : Byte) (s : State) :
    performDecc c (s.afterResponses before) = (performDecc c s).afterResponses before := by
  unfold performDecc
  cases digitOf c with
  | none => exact raise_afterResponses before _ _ s
  | some d =>
    simp only [apply_ite (State.afterResponses before), ← raise_afterResponses, ← respond_afterResponses]
    rfl

theorem performDecf_afterResponses (s : State) :
    performDecf (s.afterResponses before) = (performDecf s).afterResponses before := by
  rw [performDecf, performDecf, ← respond_afterResponses]
  rfl

theorem performPopb_afterResponses (s : State) :
    performPopb (s.afterResponses before) = (performPopb s).afterResponses before := by
  simp only [performPopb, apply_ite (State.afterResponses before), ← respond_afterResponses]
  rfl

theorem exec_afterResponses {i : Instr} {s t : State} (h : exec i s = .next t) :
    exec i (s.afterResponses before) = .next (t.afterResponses before) := by
  cases i with (cases h; refine congrArg Host.Outcome.next ?_)
  | nop => exact respond_afterResponses before true 0 s
  | clr => exact respond_afterResponses before true 0 (clearEngine s)
  | encb b => exact stateful_afterResponses before _ s (performEncb_afterResponses before b s)
  | divs => exact stateful_afterResponses before _ s (performDivs_afterResponses before s)
  | encf => exact stateful_afterResponses before _ s (performEncf_afterResponses before s)
  | popc => exact stateful_afterResponses before _ s (performPopc_afterResponses before s)
  | decc c => exact stateful_afterResponses before _ s (performDecc_afterResponses before c s)
  | decf => exact stateful_afterResponses before _ s (performDecf_afterResponses before s)
  | popb => exact stateful_afterResponses before _ s (performPopb_afterResponses before s)
  | luta idx => exact answerRead_afterResponses before _ s
  | lutv c => exact respond_afterResponses before true _ s
  | rdsr idx => exact answerRead_afterResponses before (readSR s idx) s
  | rdab idx => exact answerRead_afterResponses before (readAccByte s idx) s
  | rdds idx => exact answerRead_afterResponses before (readDigit s idx) s

/-! ## Steps and runs -/

theorem step_afterResponses {s t : State} (h : step s = .next t) :
    step (s.afterResponses before) = .next (t.afterResponses before) := by
  rcases hh : s.host with _ | ⟨⟨w⟩ | _, rest⟩
  · cases (step_of_idleHost hh).symm.trans h
    exact step_of_idleHost hh
  · cases hw : decode w with
    | ok i =>
      rw [step_of_decode_ok hh hw] at h
      exact (step_of_decode_ok (s := s.afterResponses before) hh hw).trans (exec_afterResponses before h)
    | error e =>
      cases (step_of_decode_error hh hw).symm.trans h
      rw [← takeIllegal_afterResponses]
      exact step_of_decode_error hh hw
  · cases (step_of_reset hh).symm.trans h
    exact step_of_reset hh

theorem runSteps_afterResponses {k : Nat} {s t : State} (h : runSteps k s = .next t) :
    runSteps k (s.afterResponses before) = .next (t.afterResponses before) := by
  induction k generalizing s with
  | zero =>
    cases h
    rfl
  | succ k ih =>
    obtain ⟨u, hu⟩ := step_total s
    rw [runSteps_succ hu] at h
    exact (runSteps_succ (step_afterResponses before hu)).trans (ih h)

end

theorem newResponses_afterResponses (s t : State) : newResponses s (t.afterResponses s.rsp) = t.rsp :=
  List.drop_left

/-! ## CLR -/

theorem decode_clr : decode 0x1000 = .ok .clr := by decide

/-- CLR is a fresh engine that has answered once (R102). -/
theorem step_of_clr {s : State} {rest : List HostEvent} (h : s.host = .command 0x1000 :: rest) :
    step s = .next ((freshEngine s.cfg rest [0x01180000]).afterResponses s.rsp) :=
  (step_of_decode_ok h decode_clr).trans (congrArg Host.Outcome.next (respond_clearEngine _))

/-- A run that begins with CLR adds to the responses what the same run of a fresh engine gives. -/
theorem runSteps_of_clr {s u : State} {events : List HostEvent} {k : Nat} (h : s.host = .command 0x1000 :: events)
    (hu : runSteps k (freshEngine s.cfg events [0x01180000]) = .next u) :
    runSteps (k + 1) s = .next (u.afterResponses s.rsp) :=
  (runSteps_succ (step_of_clr h)).trans (runSteps_afterResponses s.rsp hu)

/-- Settles O36: after CLR both engines run as one fresh engine does, each behind its own responses. -/
theorem responsesAfterClrForgetThePast : Obligations.ResponsesAfterClrForgetThePast := by
  intro s s' events k hcfg hs hs'
  cases k with
  | zero => exact ⟨s, s', rfl, rfl, by simp [newResponses]⟩
  | succ k =>
    obtain ⟨u, hu⟩ := runSteps_total k (freshEngine s.cfg events [0x01180000])
    refine ⟨_, _, runSteps_of_clr hs hu, runSteps_of_clr hs' (hcfg ▸ hu), ?_⟩
    rw [newResponses_afterResponses, newResponses_afterResponses]

end Sys2Proof.Machine
end

section
/-! PROOF. The read-only commands change nothing (spec/20_memory.md R53; spec/44_lookup_and_read.md R150). -/

namespace Sys2Proof.Machine

/-- A read with an entry and a benign refusal alike are one response. -/
theorem answerRead_adds_response (entry : Option Data) (s : State) :
    ∃ r, answerRead entry s = { s with rsp := s.rsp ++ [r] } := by
  cases entry with
  | none => exact ⟨_, rfl⟩
  | some d => exact ⟨_, rfl⟩

/-- The read-only commands look something up for DATA, or only answer OK; none looks at the phase (R150, R101). -/
theorem exec_of_readOnly {i : Instr} (hi : isReadOnly i = true) (s : State) :
    ∃ entry, exec i s = .next (answerRead entry s) := by
  cases i with
  | nop => exact ⟨some 0, rfl⟩
  | luta idx => exact ⟨readAlpha idx, rfl⟩
  | lutv c => exact ⟨some ((invEntry c).zeroExtend 16), rfl⟩
  | rdsr idx => exact ⟨readSR s idx, rfl⟩
  | rdab idx => exact ⟨readAccByte s idx, rfl⟩
  | rdds idx => exact ⟨readDigit s idx, rfl⟩
  | clr | encb | divs | encf | popc | decc | decf | popb => cases hi

/-- Settles O30: every read-only command is an `answerRead`, which adds one response to the state as it was. -/
theorem readOnlyCommandsChangeNothing : Obligations.ReadOnlyCommandsChangeNothing := by
  intro i s hi
  obtain ⟨entry, hexec⟩ := exec_of_readOnly hi s
  obtain ⟨r, hanswer⟩ := answerRead_adds_response entry s
  exact ⟨r, hexec.trans (congrArg Host.Outcome.next hanswer)⟩

end Sys2Proof.Machine
end

section
/-! PROOF. The decoder and the encoder undo each other, and the words they leave out are the illegal ones
(spec/30_encoding.md R60 to R68, R71). -/

namespace Sys2Proof

/-! ## The fields of an encoded word (R60, R61) -/

theorem fieldOp_encodeZ (op : BitVec 4) : fieldOp (encodeZ op) = op := by
  apply BitVec.eq_of_toNat_eq
  rw [fieldOp_toNat, encodeZ_toNat, Nat.mul_div_cancel _ (by decide)]

theorem fieldOp_encodeB (op : BitVec 4) (b : Byte) : fieldOp (encodeB op b) = op := by
  apply BitVec.eq_of_toNat_eq
  rw [fieldOp_toNat, encodeB_toNat]
  have := b.isLt
  omega

theorem fieldOp_encodeX (op : BitVec 4) (idx : Nat) : fieldOp (encodeX op idx) = op := by
  apply BitVec.eq_of_toNat_eq
  rw [fieldOp_toNat, encodeX_toNat]
  omega

@[simp] theorem fieldLow_encodeZ (op : BitVec 4) : fieldLow (encodeZ op) = 0 := by
  apply BitVec.eq_of_toNat_eq
  rw [fieldLow_toNat, encodeZ_toNat]
  simp
  omega

@[simp] theorem fieldLow_encodeB (op : BitVec 4) (b : Byte) : fieldLow (encodeB op b) = b := by
  apply BitVec.eq_of_toNat_eq
  rw [fieldLow_toNat, encodeB_toNat]
  have := b.isLt
  omega

@[simp] theorem fieldLow_encodeX (op : BitVec 4) (idx : Nat) : fieldLow (encodeX op idx) = BitVec.ofNat 8 idx := by
  apply BitVec.eq_of_toNat_eq
  rw [fieldLow_toNat, encodeX_toNat, BitVec.toNat_ofNat]
  omega

/-! ## Decoding by format (R61) -/

theorem decodeZ_encodeZ (op : BitVec 4) (i : Instr) : decodeZ (encodeZ op) i = .ok i := by
  refine if_pos (BitVec.eq_of_toNat_eq ?_)
  rw [fieldArg_toNat, encodeZ_toNat]
  simp

theorem decodeB_encodeB (op : BitVec 4) (b : Byte) (mk : Byte → Instr) : decodeB (encodeB op b) mk = .ok (mk b) := by
  have hupper : fieldUpper (encodeB op b) = 0 := by
    apply BitVec.eq_of_toNat_eq
    rw [fieldUpper_toNat, encodeB_toNat]
    have := b.isLt
    simp
    omega
  rw [decodeB, if_pos hupper, fieldLow_encodeB]

theorem decodeX_encodeX (op : BitVec 4) {idx : Nat} (h : indexFits idx = true) (mk : Nat → Instr) :
    decodeX (encodeX op idx) mk = .ok (mk idx) := by
  have hidx : idx < 4096 := by simpa [indexFits] using h
  rw [decodeX, fieldArg_toNat, encodeX_toNat]
  congr 2
  omega

theorem decodeZ_error_iff (w : CmdWord) (i : Instr) :
    (∃ e, decodeZ w i = .error e) ↔ w.toNat % 4096 ≠ 0 := by
  rw [← fieldArg_toNat, decodeZ]
  split_ifs with h
  · simp [h]
  · simpa using fun h0 => h (BitVec.eq_of_toNat_eq h0)

theorem decodeB_error_iff (w : CmdWord) (mk : Byte → Instr) :
    (∃ e, decodeB w mk = .error e) ↔ w.toNat % 4096 / 256 ≠ 0 := by
  rw [← fieldUpper_toNat, decodeB]
  split_ifs with h
  · simp [h]
  · simpa using fun h0 => h (BitVec.eq_of_toNat_eq h0)

theorem indexFits_fieldArg (w : CmdWord) : indexFits (fieldArg w).toNat = true :=
  decide_eq_true (fieldArg w).isLt

/-! ## Commands and words -/

/-- The word of a well-formed command decodes to it. -/
theorem decode_encode {i : Instr} (h : i.wf = true) : decode (encode i) = .ok i := by
  cases i with
  | nop | clr | divs | encf | popc | decf | popb =>
    rw [encode, decode, fieldOp_encodeZ]
    exact decodeZ_encodeZ _ _
  | encb b | decc b | lutv b =>
    rw [encode, decode, fieldOp_encodeB]
    exact decodeB_encodeB _ b _
  | luta idx | rdsr idx | rdab idx | rdds idx =>
    rw [encode, decode, fieldOp_encodeX]
    exact decodeX_encodeX _ h _

/-- Settles O1: by format, the fields of the word give the opcode and the operand back. -/
theorem decodeOfEncodeIsTheCommand : Obligations.DecodeOfEncodeIsTheCommand :=
  fun _ h => decode_encode h

/-- A decoded operand fits its field: only an index could fail to, and it comes from 12 bits. -/
theorem wf_of_decode {w : CmdWord} {i : Instr} (h : decode w = .ok i) : i.wf = true := by
  unfold decode at h
  split at h
  case h_1 | h_2 | h_4 | h_5 | h_6 | h_8 | h_9 =>
    obtain ⟨rfl, -⟩ := encodeZ_of_decodeZ h
    rfl
  case h_3 | h_7 | h_11 =>
    obtain ⟨rfl, -⟩ := encodeB_of_decodeB h
    rfl
  case h_10 | h_12 | h_13 | h_14 =>
    cases h
    exact indexFits_fieldArg w
  case h_15 => cases h

/-- Settles O2: `encode_of_decode` gives the word back, and its operand fits. -/
theorem encodeOfDecodeIsTheWord : Obligations.EncodeOfDecodeIsTheWord :=
  fun _ _ h => ⟨wf_of_decode h, encode_of_decode h⟩

/-- Settles O3: by opcode, a format Z word fails on ARG, a format B word on ARG[11:8], a format X word never. -/
theorem illegalWordsAreThoseOfTheRule : Obligations.IllegalWordsAreThoseOfTheRule := by
  intro w
  unfold decode
  rw [← fieldOp_toNat]
  split
  case h_1 hop | h_2 hop | h_4 hop | h_5 hop | h_6 hop | h_8 hop | h_9 hop => simp [decodeZ_error_iff, hop]
  case h_3 hop | h_7 hop | h_11 hop => simp [decodeB_error_iff, hop]
  case h_10 hop | h_12 hop | h_13 hop | h_14 hop => simp [decodeX, hop]
  case h_15 =>
    have hreserved : 14 ≤ (fieldOp w).toNat := by
      have := (fieldOp w).isLt
      by_contra hlt
      interval_cases (fieldOp w).toNat <;> contradiction
    simp [hreserved]

/-! ## The opcode table (R66) -/

theorem rowSelects : ∀ i : Instr, Laws.RowSelects.Statement i
  | .nop => Laws.RowSelects.nop
  | .clr => Laws.RowSelects.clr
  | .encb b => Laws.RowSelects.encb b
  | .divs => Laws.RowSelects.divs
  | .encf => Laws.RowSelects.encf
  | .popc => Laws.RowSelects.popc
  | .decc c => Laws.RowSelects.decc c
  | .decf => Laws.RowSelects.decf
  | .popb => Laws.RowSelects.popb
  | .luta idx => Laws.RowSelects.luta idx
  | .lutv c => Laws.RowSelects.lutv c
  | .rdsr idx => Laws.RowSelects.rdsr idx
  | .rdab idx => Laws.RowSelects.rdab idx
  | .rdds idx => Laws.RowSelects.rdds idx

/-- The word of every command lies in the command's row. -/
theorem encode_and_mask (i : Instr) : encode i &&& (rowOf i).mask = (rowOf i).pattern := by
  obtain ⟨-, hselects⟩ := rowSelects i
  exact beq_iff_eq.1 hselects

theorem eq_encodeB_of_masked {w : CmdWord} {op : BitVec 4} (h : w &&& 0xFF00#16 = encodeZ op) :
    encodeB op (fieldLow w) = w := by
  apply BitVec.eq_of_toNat_eq
  rw [encodeB_toNat, fieldLow_toNat, ← encodeZ_toNat, ← h, and_upperMask_toNat, Nat.div_add_mod']

theorem eq_encodeX_of_masked {w : CmdWord} {op : BitVec 4} (h : w &&& 0xF000#16 = encodeZ op) :
    encodeX op (fieldArg w).toNat = w := by
  apply BitVec.eq_of_toNat_eq
  rw [encodeX_toNat, fieldArg_toNat, ← encodeZ_toNat, ← h, and_opcodeMask_toNat, Nat.mod_mod,
    Nat.div_add_mod']

/-- A word in the row of a command is the word of a command of that row. -/
theorem exists_encode_of_masked {w : CmdWord} {i : Instr} (h : w &&& (rowOf i).mask = (rowOf i).pattern) :
    ∃ j, j.wf = true ∧ rowOf j = rowOf i ∧ encode j = w := by
  have hfull {x : CmdWord} (hx : w &&& 0xFFFF#16 = x) : x = w := hx ▸ BitVec.and_allOnes
  cases i with
  | nop => exact ⟨.nop, rfl, rfl, hfull h⟩
  | clr => exact ⟨.clr, rfl, rfl, hfull h⟩
  | encb => exact ⟨.encb (fieldLow w), rfl, rfl, eq_encodeB_of_masked h⟩
  | divs => exact ⟨.divs, rfl, rfl, hfull h⟩
  | encf => exact ⟨.encf, rfl, rfl, hfull h⟩
  | popc => exact ⟨.popc, rfl, rfl, hfull h⟩
  | decc => exact ⟨.decc (fieldLow w), rfl, rfl, eq_encodeB_of_masked h⟩
  | decf => exact ⟨.decf, rfl, rfl, hfull h⟩
  | popb => exact ⟨.popb, rfl, rfl, hfull h⟩
  | luta => exact ⟨.luta (fieldArg w).toNat, indexFits_fieldArg w, rfl, eq_encodeX_of_masked h⟩
  | lutv => exact ⟨.lutv (fieldLow w), rfl, rfl, eq_encodeB_of_masked h⟩
  | rdsr => exact ⟨.rdsr (fieldArg w).toNat, indexFits_fieldArg w, rfl, eq_encodeX_of_masked h⟩
  | rdab => exact ⟨.rdab (fieldArg w).toNat, indexFits_fieldArg w, rfl, eq_encodeX_of_masked h⟩
  | rdds => exact ⟨.rdds (fieldArg w).toNat, indexFits_fieldArg w, rfl, eq_encodeX_of_masked h⟩

/-- Settles O4: a selected word is the word of a command of the row, and a command's word lies in its row. -/
theorem wordSelectsRowItDecodesTo : Obligations.WordSelectsRowItDecodesTo := by
  intro w r hr
  obtain ⟨i, -, rfl⟩ := List.mem_map.1 hr
  constructor
  · intro h
    obtain ⟨j, hwf, hrow, rfl⟩ := exists_encode_of_masked h
    exact ⟨j, decode_encode hwf, hrow⟩
  · rintro ⟨j, hj, hrow⟩
    rw [← hrow, ← encode_of_decode hj]
    exact encode_and_mask j

/-- Settles O5: the decoder evaluated on each of the written words. -/
theorem writtenWordsDecode : Obligations.WrittenWordsDecode := by
  unfold Obligations.WrittenWordsDecode
  decide

/-- What a word records in ERRCH when it faults. -/
theorem fieldLow_encode (i : Instr) : fieldLow (encode i) = Machine.lowByteOf i := by
  cases i with
  | nop | clr | divs | encf | popc | decf | popb => exact fieldLow_encodeZ _
  | encb b | decc b | lutv b => exact fieldLow_encodeB _ b
  | luta idx | rdsr idx | rdab idx | rdds idx => exact fieldLow_encodeX _ idx

/-- Settles O57: by format, opcode and operand stand side by side in the word. -/
theorem commandWordIsOpcodeAndOperand : Obligations.CommandWordIsOpcodeAndOperand := by
  intro i h
  refine ⟨?_, fieldLow_encode i⟩
  cases i with
  | nop | clr | divs | encf | popc | decf | popb => exact encodeZ_toNat _
  | encb b | decc b | lutv b => exact encodeB_toNat _ b
  | luta idx | rdsr idx | rdab idx | rdds idx =>
    have hidx : idx < 4096 := by simpa [Instr.wf, indexFits] using h
    rw [encode, encodeX_toNat, Nat.mod_eq_of_lt hidx]
    rfl

end Sys2Proof
end

section
/-! PROOF. Every command word is answered once, and the four kinds of answer (spec/30_encoding.md R64, R65, R70,
R75). -/

namespace Sys2Proof.Machine

/-- Settles O6: it is `step_of_decode_ok`. -/
theorem stepRunsTheDecodedCommand : Obligations.StepRunsTheDecodedCommand :=
  fun _ _ _ _ hhost hdecode => step_of_decode_ok hhost hdecode

/-! ## A step on a command word is one answer (R64, R75) -/

/-- A performed command leaves both channels as they are. -/
theorem Effect.channels {i : Instr} {s u : State} (hu : Effect i s u) : u.host = s.host ∧ u.rsp = s.rsp := by
  cases hu <;> exact ⟨rfl, rfl⟩

/-- ERRINFO of a fault fits DATA (R27). -/
theorem causeInfo_lt (c : Cause) (low : Byte) : causeNumber c * 256 + low.toNat < 65536 := by
  have := low.isLt
  cases c <;> simp [causeNumber] <;> omega

/-- Taking a command word ends in one answer, which shows the state it belongs to. -/
theorem StepResult.answered {s t : State} {w : CmdWord} {rest : List HostEvent} (ht : StepResult s t)
    (hhost : s.host = .command w :: rest) :
    ∃ ok d u, d < 65536 ∧ t = answerWith ok d u ∧ u.host = rest ∧ u.rsp = s.rsp := by
  cases ht with
  | waits hh => simp [hh] at hhost
  | resets hh => simp [hh] at hhost
  | refused hh =>
    obtain ⟨-, rfl⟩ := List.cons.inj (hh.symm.trans hhost)
    exact ⟨false, _, _, errInfoNumber_lt _, rfl, rfl, rfl⟩
  | @faulted w _ hh _ c =>
    obtain ⟨-, rfl⟩ := List.cons.inj (hh.symm.trans hhost)
    exact ⟨false, _, _, causeInfo_lt c (fieldLow w), rfl, rfl, rfl⟩
  | performed hh ok d hu =>
    obtain ⟨-, rfl⟩ := List.cons.inj (hh.symm.trans hhost)
    obtain ⟨hhost', hrsp⟩ := hu.channels
    exact ⟨ok, d.toNat, _, d.isLt, respond_eq_answerWith ok d _, hhost', hrsp⟩

/-- The word of an answer: nothing above OK, and STATUS in [23:16] (R64). -/
theorem answerWith_adds_word (ok : Bool) {d : Nat} (hd : d < 65536) (u : State) :
    ∃ r, (answerWith ok d u).rsp = u.rsp ++ [r] ∧
      r.toNat < 2 ^ 25 ∧ r.toNat / 2 ^ 16 % 2 ^ 8 = statusNumber u := by
  have hs := statusNumber_lt u
  refine ⟨_, rfl, ?_⟩
  rw [BitVec.toNat_ofNat, Nat.mod_eq_of_lt (by split <;> omega)]
  cases ok <;> simp <;> omega

/-- Settles O28: `StepResult.answered` for a command word; reset writes neither channel. -/
theorem oneResponsePerCommandWord : Obligations.OneResponsePerCommandWord := by
  refine fun s => ⟨fun w rest hhost => ?_, fun rest hhost => ⟨_, step_of_reset hhost, rfl, rfl⟩⟩
  obtain ⟨t, hstep⟩ := step_total s
  obtain ⟨ok, d, u, hd, rfl, hrest, hrsp⟩ := (step_cases hstep).answered hhost
  obtain ⟨r, hr, hreserved, hstatus⟩ := answerWith_adds_word ok hd u
  exact ⟨_, r, hstep, hrest, hrsp ▸ hr, hreserved, hstatus⟩

/-! ## The commands, clause by clause (42_encode R111 to R113, 43_decode R131, R132) -/

section

variable {s : State}

/-- In one of its phases a stateful command is performed. -/
theorem stateful_performed {i : Instr} {f : State → State} (hi : .fault ∉ legalPhases i)
    (hp : s.phase ∈ legalPhases i) : stateful i f s = f s :=
  stateful_of_legal (fun hf => hi (hf ▸ hp)) hp

theorem exec_encb_of_input (b : Byte) (hp : s.phase = .idle ∨ s.phase = .encIn) :
    exec (.encb b) s = .next (performEncb b s) :=
  congrArg Host.Outcome.next
    (stateful_performed (by simp [legalPhases]) (by simpa [legalPhases] using hp))

theorem exec_encb_of_zero (hp : s.phase = .idle ∨ s.phase = .encIn) (hl : s.lead = true) (hpad : s.pad ≠ 65535) :
    exec (.encb 0) s = .next (respond true 0 { s with pad := s.pad + 1, phase := .encIn }) := by
  rw [exec_encb_of_input 0 hp, performEncb, if_pos ⟨hl, rfl⟩, if_neg hpad]

theorem exec_encb_of_fits {b : Byte} (hp : s.phase = .idle ∨ s.phase = .encIn) (hl : ¬ (s.lead = true ∧ b = 0))
    (hfit : s.acc < 256 ^ (s.cfg.accBytes - 1)) :
    exec (.encb b) s =
      .next (respond true 0 { s with lead := false, acc := s.acc * 256 + b.toNat, phase := .encIn }) := by
  rw [exec_encb_of_input b hp, performEncb, if_neg hl, if_neg (Nat.not_le.2 hfit)]

theorem exec_divs_of_room (hp : s.phase = .idle ∨ s.phase = .encIn ∨ s.phase = .encDiv)
    (hroom : s.dstk.length ≠ dstkDepth s.cfg) :
    exec .divs s = .next (respond true (dataOfDigit (remDigit s.acc)) { divStep s with phase := .encDiv }) := by
  have hlegal : stateful .divs performDivs s = performDivs s :=
    stateful_performed (by simp [legalPhases]) (by simpa [legalPhases] using hp)
  exact congrArg Host.Outcome.next (hlegal.trans (if_neg hroom))

theorem exec_encf_of_room (hp : s.phase = .idle ∨ s.phase = .encIn ∨ s.phase = .encDiv)
    (hroom : s.dstk.length + ndigits s.acc ≤ dstkDepth s.cfg) :
    ∃ d, exec .encf s =
      .next (respond true d
        { s with
          acc := 0, rem := (digitsMin s.acc).headD s.rem, dstk := s.dstk ++ (digitsMin s.acc).reverse,
          phase := .encOut }) := by
  have hlegal : stateful .encf performEncf s = performEncf s :=
    stateful_performed (by simp [legalPhases]) (by simpa [legalPhases] using hp)
  have hperform : performEncf s = respond true _ _ :=
    (if_neg (Nat.not_lt.2 hroom)).trans (by rw [divLoop_eq _ s rfl])
  exact ⟨_, congrArg Host.Outcome.next (hlegal.trans hperform)⟩

theorem exec_decc_of_input (c : Byte) (hp : s.phase = .idle ∨ s.phase = .decIn) :
    exec (.decc c) s = .next (performDecc c s) :=
  congrArg Host.Outcome.next
    (stateful_performed (by simp [legalPhases]) (by simpa [legalPhases] using hp))

theorem exec_decc_of_one {c : Byte} (hp : s.phase = .idle ∨ s.phase = .decIn) (hc : digitOf c = some 0)
    (hl : s.lead = true) (hpad : s.pad ≠ 65535) :
    exec (.decc c) s = .next (respond true (dataOfDigit 0) { s with pad := s.pad + 1, phase := .decIn }) := by
  simp only [exec_decc_of_input c hp, performDecc, hc, hl, and_self, if_true, if_neg hpad]

theorem exec_decc_of_fits {c : Byte} {d : Digit} (hp : s.phase = .idle ∨ s.phase = .decIn)
    (hc : digitOf c = some d) (hl : ¬ (s.lead = true ∧ d = 0))
    (hfit : s.acc * 58 + d.val < 256 ^ s.cfg.accBytes) :
    exec (.decc c) s =
      .next (respond true (dataOfDigit d)
        { s with lead := false, acc := s.acc * 58 + d.val, phase := .decIn }) := by
  have hcap : ¬ s.acc * 58 + d.val ≥ accLimit s.cfg := Nat.not_le.2 hfit
  simp only [exec_decc_of_input c hp, performDecc, hc, if_neg hl, if_neg hcap]

theorem exec_decc_of_invalid {c : Byte} (hp : s.phase = .idle ∨ s.phase = .decIn) (hc : digitOf c = none) :
    exec (.decc c) s = .next (raise .einvch (encode (.decc c)) s) := by
  simp only [exec_decc_of_input c hp, performDecc, hc]

theorem exec_decf_of_input (hp : s.phase = .idle ∨ s.phase = .decIn) : exec .decf s = .next (performDecf s) :=
  congrArg Host.Outcome.next
    (stateful_performed (by simp [legalPhases]) (by simpa [legalPhases] using hp))

end

/-! ## The four kinds of response (R65) -/

/-- An effect is what the command does: its answer is OK = 1, or nothing changed and DATA is 0 (R185). -/
theorem Effect.exec_answer {i : Instr} {s u : State} (hu : Effect i s u) :
    (∃ d, exec i s = .next (respond true d u)) ∨ (u = s ∧ exec i s = .next (withBenignRefusal s)) := by
  cases hu with
  | read hi =>
    obtain ⟨entry, hexec⟩ := exec_of_readOnly hi s
    cases entry with
    | none => exact .inr ⟨rfl, hexec.trans (congrArg Host.Outcome.next (respond_refusal_eq s))⟩
    | some d => exact .inl ⟨d, hexec⟩
  | clear => exact .inl ⟨_, rfl⟩
  | countZeroByte hp hl hpad => exact .inl ⟨_, exec_encb_of_zero hp hl hpad⟩
  | shiftInByte hp hl hfit => exact .inl ⟨_, exec_encb_of_fits hp hl hfit⟩
  | divideOnce hp hroom => exact .inl ⟨_, exec_divs_of_room hp hroom⟩
  | divideToEnd hp hroom => exact .inl (exec_encf_of_room hp hroom)
  | popPadChar hp hpad =>
    exact .inl ⟨_, (exec_popc_of_encOut hp).trans (congrArg Host.Outcome.next (performPopc_of_pad hpad))⟩
  | popDigit hp hpad hd =>
    exact .inl ⟨_, (exec_popc_of_encOut hp).trans (congrArg Host.Outcome.next (performPopc_of_top hpad hd))⟩
  | popNoChar hp hpad hd =>
    refine .inr ⟨rfl, ?_⟩
    rw [exec_popc_of_encOut hp, performPopc_of_empty hpad hd, respond_refusal_eq]
  | countOneChar hp hc hl hpad => exact .inl ⟨_, exec_decc_of_one hp hc hl hpad⟩
  | addDigit hp hc hl hfit => exact .inl ⟨_, exec_decc_of_fits hp hc hl hfit⟩
  | finishDecode hp => exact .inl ⟨_, exec_decf_of_input hp⟩
  | popPadByte hp hpad =>
    exact .inl ⟨_, (exec_popb_of_decOut hp).trans (congrArg Host.Outcome.next (performPopb_of_pad hpad))⟩
  | popByte hp hpad ho =>
    exact .inl ⟨_, (exec_popb_of_decOut hp).trans (congrArg Host.Outcome.next (performPopb_of_byte hpad ho))⟩
  | popNoByte hp hpad ho =>
    refine .inr ⟨rfl, ?_⟩
    rw [exec_popb_of_decOut hp, performPopb_of_empty hpad ho, respond_refusal_eq]

/-- Only a read-only command is performed in FAULT and leaves it as it is. -/
theorem Effect.readOnly_of_fault {i : Instr} {s u : State} (hu : Effect i s u) (hf : u.phase = .fault) :
    s.phase = .fault ∧ isReadOnly i = true := by
  cases hu with
  | read hi => exact ⟨hf, hi⟩
  | popPadChar hp | popDigit hp | popNoChar hp | popPadByte hp | popByte hp | popNoByte hp =>
    cases hp.symm.trans hf
  | _ => cases hf

/-- A command word is refused in FAULT, or faults, or is performed with OK = 1, or is a benign refusal. -/
theorem step_command_cases {s : State} {w : CmdWord} {rest : List HostEvent} (hhost : s.host = .command w :: rest) :
    (s.phase = .fault ∧ step s = .next (withRefusal { s with host := rest })) ∨
    (s.phase ≠ .fault ∧ ∃ c, step s = .next (withFault c (fieldLow w) { s with host := rest })) ∨
    (∃ i d u, decode w = .ok i ∧ Effect i { s with host := rest } u ∧ step s = .next (respond true d u)) ∨
    step s = .next (withBenignRefusal { s with host := rest }) := by
  cases hw : decode w with
  | error e =>
    rw [step_of_decode_error hhost hw]
    obtain ⟨hf, heq⟩ | ⟨hf, heq⟩ := takeIllegal_cases w { s with host := rest } <;> rw [heq]
    · exact .inl ⟨hf, rfl⟩
    · exact .inr (.inl ⟨hf, .eill, rfl⟩)
  | ok i =>
    obtain ⟨t, ht⟩ := exec_total i { s with host := rest }
    have hstep := step_of_decode_ok hhost hw
    cases exec_cases ht with
    | refused hf => exact .inl ⟨hf, hstep.trans ht⟩
    | faulted hf c => exact .inr (.inl ⟨hf, c, encode_of_decode hw ▸ hstep.trans ht⟩)
    | performed _ _ hu =>
      obtain ⟨d, hexec⟩ | ⟨-, hexec⟩ := hu.exec_answer
      · exact .inr (.inr (.inl ⟨i, d, _, rfl, hu, hstep.trans hexec⟩))
      · exact .inr (.inr (.inr (hstep.trans hexec)))

/-- What the host reads of an answer. -/
theorem answerWith_adds_view (ok : Bool) {d : Nat} (hd : d < 65536) (u : State) :
    ∃ r, (answerWith ok d u).rsp = u.rsp ++ [r] ∧ responseView r = (ok, decide (u.err ≠ none), d) :=
  ⟨_, rfl, responseView_answer ok d u hd⟩

theorem fieldLow_eq_ofNat (w : CmdWord) : fieldLow w = BitVec.ofNat 8 w.toNat := by
  apply BitVec.eq_of_toNat_eq
  rw [fieldLow_toNat, BitVec.toNat_ofNat]

/-- Settles O29: each of `step_command_cases` is one of the kinds, FLT being 1 exactly in FAULT by the invariants. -/
theorem fourKindsOfResponse : Obligations.FourKindsOfResponse := by
  intro s w rest hs hhost
  have htaken := hs.channels rest s.rsp
  obtain ⟨hf, hstep⟩ | ⟨hf, c, hstep⟩ | ⟨i, d, u, hw, hu, hstep⟩ | hstep := step_command_cases hhost
  · obtain ⟨r, hr, hview⟩ := answerWith_adds_view false (errInfoNumber_lt _) { s with host := rest }
    refine ⟨_, r, hstep, hr, .inr (.inr (.inl ?_))⟩
    simp [hview, hf, hs.fault_iff.1 hf]
  · obtain ⟨r, hr, hview⟩ := answerWith_adds_view false (causeInfo_lt c (fieldLow w))
      { s with host := rest, err := some c, errch := fieldLow w, phase := .fault }
    refine ⟨_, r, hstep, hr, .inr (.inl ⟨?_, hf, ?_, c, ?_⟩)⟩
    · simp [hview]
    · simp [hview]
    · rw [fieldLow_eq_ofNat]
  · obtain ⟨r, hr, hview⟩ := answerWith_adds_view true d.isLt u
    obtain ⟨-, hrsp⟩ := hu.channels
    rw [respond_eq_answerWith] at hstep
    refine ⟨_, r, hstep, hrsp ▸ hr, .inl ⟨by simp [hview], fun hflt => ?_⟩⟩
    have huf : u.phase = .fault := (hu.inv htaken).fault_iff.2 (by simpa [hview] using hflt)
    obtain ⟨hf, hi⟩ := hu.readOnly_of_fault huf
    exact ⟨hf, i, hw, hi⟩
  · obtain ⟨r, hr, hview⟩ := answerWith_adds_view false (d := 0) (by decide) { s with host := rest }
    refine ⟨_, r, hstep, hr, .inr (.inr (.inr ?_))⟩
    simp [hview, hs.fault_iff]

end Sys2Proof.Machine
end

section
/-! PROOF. The minimal sequences, the leading runs and the closed forms of the reference functions
(spec/40_reference_codec.md R81 to R85). -/

namespace Sys2Proof.Machine

/-! ## Minimal sequences as the engine delivers them -/

/-- The `k` low bytes of `n`, the highest first: what POPB delivers from OIDX = k (43_decode R133). -/
def lowBytes (n k : Nat) : List Byte := ((List.range k).map (accByte n)).reverse

theorem lowBytes_succ (n k : Nat) : lowBytes n (k + 1) = accByte n k :: lowBytes n k := by
  simp [lowBytes, List.range_succ]

/-- Counted from the other end: the bytes of the quotient by 256, then byte 0. -/
theorem lowBytes_succ' (n k : Nat) : lowBytes n (k + 1) = lowBytes (n / 256) k ++ [BitVec.ofNat 8 (n % 256)] := by
  have hbyte : accByte n ∘ Nat.succ = accByte (n / 256) := by
    funext i
    simp [accByte, Nat.pow_succ', Nat.div_div_eq_div_mul]
  rw [lowBytes, List.range_succ_eq_map, List.map_cons, List.map_map, hbyte, List.reverse_cons]
  simp [lowBytes, accByte]

theorem bytesMin_eq_lowBytes (n : Nat) : bytesMin n = lowBytes n (bytelen n) := by
  induction n using Nat.strong_induction_on with
  | _ n ih =>
    by_cases h : n = 0
    · subst h
      rfl
    · rw [bytesMin_step h, bytelen_step h, lowBytes_succ', ih _ (Nat.div_lt_self (Nat.pos_of_ne_zero h) (by decide))]

theorem encLoop_eq_map (fuel n : Nat) (digits : List Digit) :
    encLoop fuel n (digits.map alpha) = (digitsLoop fuel n digits).map alpha := by
  induction fuel generalizing n digits with
  | zero => rfl
  | succ fuel ih =>
    by_cases h : n = 0
    · simp [encLoop, digitsLoop, h]
    · simpa [encLoop, digitsLoop, h] using ih (n / 58) (remDigit n :: digits)

/-- The closed form of `enc` (R82). -/
theorem enc_eq (data : List Byte) :
    enc data = List.replicate (lead0 data) (alpha 0) ++ (digitsMin (val256 data)).map alpha :=
  congrArg (List.replicate (lead0 data) (alpha 0) ++ ·) (encLoop_eq_map _ _ [])

/-! ## Leading runs -/

/-- An element goes on the leading run when nothing ended the run before. -/
theorem length_takeWhile_concat (c : Byte) (xs : List Byte) (x : Byte) :
    ((xs ++ [x]).takeWhile (· == c)).length =
      if (xs.takeWhile (· == c)).length = xs.length ∧ x = c then (xs.takeWhile (· == c)).length + 1
      else (xs.takeWhile (· == c)).length := by
  rw [List.takeWhile_append]
  by_cases hrun : (xs.takeWhile (· == c)).length = xs.length <;> by_cases hx : x = c <;> simp [hrun, hx]

theorem lead0_concat (xs : List Byte) (b : Byte) :
    lead0 (xs ++ [b]) = if lead0 xs = xs.length ∧ b = 0 then lead0 xs + 1 else lead0 xs :=
  length_takeWhile_concat 0 xs b

theorem lead1_concat (xs : List Byte) (c : Byte) :
    lead1 (xs ++ [c]) = if lead1 xs = xs.length ∧ c = alpha 0 then lead1 xs + 1 else lead1 xs :=
  length_takeWhile_concat (alpha 0) xs c

theorem lead0_le_length (xs : List Byte) : lead0 xs ≤ xs.length := (List.takeWhile_sublist _).length_le

theorem lead1_le_length (xs : List Byte) : lead1 xs ≤ xs.length := (List.takeWhile_sublist _).length_le

/-- Leading zero bytes add nothing to the value, so the others bound it. -/
theorem val256_lt_significant (xs : List Byte) : val256 xs < 256 ^ (xs.length - lead0 xs) := by
  induction xs with
  | nil => decide
  | cons x xs ih =>
    by_cases hx : x = 0
    · simpa [hx, val256, lead0] using ih
    · have hrun : lead0 (x :: xs) = 0 := congrArg List.length (List.takeWhile_cons_of_neg (by simpa using hx))
      simpa [hrun] using val256_lt (x :: xs)

/-! ## Valid strings and `dec` (R85) -/

/-- A string with the digits `ds` is the string of the characters of `ds`. -/
theorem eq_map_alpha {chars : List Byte} {ds : List Digit} (h : chars.map digitOf = ds.map some) :
    chars = ds.map alpha := by
  induction chars generalizing ds with
  | nil => simpa using h.symm
  | cons c cs ih =>
    cases ds with
    | nil => cases h
    | cons d ds =>
      obtain ⟨hc, hcs⟩ := List.cons.inj h
      rw [List.map_cons, alpha_of_digitOf hc, ih hcs]

theorem decLoop_map_alpha (n : Nat) (ds : List Digit) :
    decLoop n (ds.map alpha) = .ok (n * 58 ^ ds.length + val58 ds) := by
  induction ds generalizing n with
  | nil => simp [decLoop, val58]
  | cons d ds ih =>
    simp only [List.map_cons, decLoop, digitOf_alpha, ih, val58, List.length_cons]
    congr 1
    ring

/-- The closed form of `dec` on a valid string (R85). -/
theorem dec_map_alpha (ds : List Digit) :
    dec (ds.map alpha) = .ok (List.replicate (lead1 (ds.map alpha).dropLast) 0 ++ bytesMin (val58 ds)) := by
  cases ds with
  | nil => rfl
  | cons d ds =>
    have hloop := decLoop_map_alpha 0 (d :: ds)
    rw [List.map_cons] at hloop ⊢
    simp [dec, hloop]

end Sys2Proof.Machine
end

section
/-! PROOF. The pseudo-instructions compute `enc` and `dec` (spec/30_encoding.md R72; spec/40_reference_codec.md R94 to
R96): the state that the input commands build up, and what the pops deliver from it. -/

namespace Sys2Proof.Machine

/-! ## The host's side, command by command (R72) -/

/-- Presenting a command's word performs the command. -/
theorem ask_encode {i : Instr} {s t : State} (hi : i.wf = true) (h : exec i s = .next t) : ask (encode i) s = t := by
  have hstep : step (present (encode i) s) = .next t := (step_of_decode_ok rfl (decode_encode hi)).trans h
  rw [ask, hstep]

theorem askAll_append (is js : List Instr) (s : State) : askAll (is ++ js) s = askAll js (askAll is s) := by
  induction is generalizing s with
  | nil => rfl
  | cons i is ih => exact ih _

@[simp] theorem responseOk_responseWord (ok : Bool) (st : Byte) (d : Data) :
    responseOk (responseWord ok st d) = ok := by
  have hst := st.isLt
  have hd := d.isLt
  rw [responseOk, BitVec.getLsbD, responseWord_toNat, Nat.testBit_eq_decide_div_mod_eq]
  cases ok <;> simp <;> omega

@[simp] theorem responseData_responseWord (ok : Bool) (st : Byte) (d : Data) :
    responseData (responseWord ok st d) = d := by
  apply BitVec.eq_of_toNat_eq
  rw [responseData, BitVec.extractLsb'_toNat, responseWord_toNat]
  have hd := d.isLt
  cases ok <;> simp <;> omega

@[simp] theorem respond_rsp_getLast? (ok : Bool) (d : Data) (s : State) :
    (respond ok d s).rsp.getLast? = some (responseWord ok (statusByte s) d) :=
  List.getLast?_concat

theorem truncate_dataOfByte (b : Byte) : (dataOfByte b).truncate 8 = b :=
  (BitVec.setWidth_setWidth_of_le b (by decide)).trans (BitVec.setWidth_eq b)

/-- Every command of the list, sent after the ones before it, answers OK = 1. -/
def answersOk : List Instr → State → Prop
  | [], _ => True
  | i :: is, s => (∃ d u, ask (encode i) s = respond true d u) ∧ answersOk is (ask (encode i) s)

theorem answersOk_append {is js : List Instr} {s : State} (his : answersOk is s) (hjs : answersOk js (askAll is s)) :
    answersOk (is ++ js) s := by
  induction is generalizing s with
  | nil => exact hjs
  | cons i is ih =>
    obtain ⟨hi, his⟩ := his
    exact ⟨hi, ih his hjs⟩

/-- The host does not stop within commands that answer OK = 1. -/
theorem askWhileOk_append {is : List Instr} {s : State} (h : answersOk is s) (js : List Instr) :
    askWhileOk (is ++ js) s = askWhileOk js (askAll is s) := by
  induction is generalizing s with
  | nil => rfl
  | cons i is ih =>
    obtain ⟨⟨d, u, hask⟩, his⟩ := h
    rw [hask] at his
    simp [askWhileOk, askAll, hask, ih his]

theorem askWhileOk_eq_askAll {is : List Instr} {s : State} (h : answersOk is s) : askWhileOk is s = askAll is s := by
  simpa [askWhileOk] using askWhileOk_append h []

/-- The host stops at a command that answers OK = 0. -/
theorem askWhileOk_cons_of_refused {i : Instr} {s u : State} {d : Data} (h : ask (encode i) s = respond false d u)
    (is : List Instr) : askWhileOk (i :: is) s = respond false d u := by
  simp [askWhileOk, h]

/-! ## Draining (R72) -/

/-- When `ready s bs` says that the pops deliver `bs` from `s`, draining gives `bs` for every bound above its length
(log 18). -/
theorem drain_of_ready {pop : Instr} {ready : State → List Byte → Prop}
    (hend : ∀ s, ready s [] → ∃ d u, ask (encode pop) s = respond false d u)
    (hnext : ∀ s b bs, ready s (b :: bs) →
      ∃ u, ask (encode pop) s = respond true (dataOfByte b) u ∧ ready (respond true (dataOfByte b) u) bs)
    {bs : List Byte} {s : State} {fuel : Nat} (hs : ready s bs) (hfuel : bs.length < fuel) :
    (drain pop fuel s).1 = bs := by
  induction bs generalizing s fuel with
  | nil =>
    obtain ⟨n, rfl⟩ := Nat.exists_eq_add_of_lt hfuel
    obtain ⟨d, u, hask⟩ := hend s hs
    simp [drain, hask]
  | cons b bs ih =>
    obtain ⟨n, rfl⟩ := Nat.exists_eq_add_of_lt hfuel
    obtain ⟨u, hask, hready⟩ := hnext s b bs hs
    have hrest := ih (fuel := bs.length + 1 + n) hready (by omega)
    simp [drain, hask, truncate_dataOfByte, hrest]

/-- In ENC_OUT: the characters still to come (42_encode R114). -/
def charsReady (s : State) (chars : List Byte) : Prop :=
  s.phase = .encOut ∧ chars = List.replicate s.pad.toNat (alpha 0) ++ s.dstk.reverse.map alpha

/-- In DEC_OUT: the bytes still to come (43_decode R133). -/
def bytesReady (s : State) (bytes : List Byte) : Prop :=
  s.phase = .decOut ∧ bytes = List.replicate s.pad.toNat 0 ++ lowBytes s.acc s.oidx.toNat

/-- PAD counted down by one. -/
theorem toNat_eq_succ_of_ne_zero {x : BitVec 16} (h : x ≠ 0) : x.toNat = (x - 1).toNat + 1 := by
  bv_omega

theorem popc_of_charsReady_nil (s : State) (h : charsReady s []) : ask (encode .popc) s = respond false 0 s := by
  obtain ⟨hp, hchars⟩ := h
  obtain ⟨hpad, hd⟩ := List.append_eq_nil_iff.1 hchars.symm
  refine ask_encode rfl ((exec_popc_of_encOut hp).trans (congrArg Host.Outcome.next (performPopc_of_empty ?_ ?_)))
  · exact BitVec.eq_of_toNat_eq (by simpa using hpad)
  · simpa using hd

theorem popc_of_charsReady_cons (s : State) (c : Byte) (cs : List Byte) (h : charsReady s (c :: cs)) :
    ∃ u, ask (encode .popc) s = respond true (dataOfByte c) u ∧ charsReady (respond true (dataOfByte c) u) cs := by
  obtain ⟨hp, hchars⟩ := h
  have hask {t : State} (ht : performPopc s = t) : ask (encode .popc) s = t :=
    ask_encode rfl ((exec_popc_of_encOut hp).trans (congrArg Host.Outcome.next ht))
  by_cases hpad : s.pad = 0
  · obtain hd | ⟨below, top, hd⟩ := List.eq_nil_or_concat' s.dstk
    · simp [hpad, hd] at hchars
    · obtain ⟨rfl, rfl⟩ : c = alpha top ∧ cs = below.reverse.map alpha := by simpa [hpad, hd] using hchars
      exact ⟨_, hask (performPopc_of_top hpad hd), hp, by simp [hpad]⟩
  · rw [toNat_eq_succ_of_ne_zero hpad, List.replicate_succ, List.cons_append] at hchars
    obtain ⟨rfl, rfl⟩ := List.cons.inj hchars
    exact ⟨_, hask (performPopc_of_pad hpad), hp, rfl⟩

theorem popb_of_bytesReady_nil (s : State) (h : bytesReady s []) : ask (encode .popb) s = respond false 0 s := by
  obtain ⟨hp, hbytes⟩ := h
  obtain ⟨hpad, ho⟩ := List.append_eq_nil_iff.1 hbytes.symm
  refine ask_encode rfl ((exec_popb_of_decOut hp).trans (congrArg Host.Outcome.next (performPopb_of_empty ?_ ?_)))
  · exact BitVec.eq_of_toNat_eq (by simpa using hpad)
  · exact BitVec.eq_of_toNat_eq (by simpa [lowBytes] using ho)

theorem popb_of_bytesReady_cons (s : State) (b : Byte) (bs : List Byte) (h : bytesReady s (b :: bs)) :
    ∃ u, ask (encode .popb) s = respond true (dataOfByte b) u ∧ bytesReady (respond true (dataOfByte b) u) bs := by
  obtain ⟨hp, hbytes⟩ := h
  have hask {t : State} (ht : performPopb s = t) : ask (encode .popb) s = t :=
    ask_encode rfl ((exec_popb_of_decOut hp).trans (congrArg Host.Outcome.next ht))
  by_cases hpad : s.pad = 0
  · by_cases ho : s.oidx = 0
    · simp [hpad, ho, lowBytes] at hbytes
    · rw [toNat_eq_succ_of_ne_zero ho, lowBytes_succ, hpad] at hbytes
      obtain ⟨rfl, rfl⟩ := List.cons.inj hbytes
      exact ⟨_, hask (performPopb_of_byte hpad ho), hp, by simp [hpad]⟩
  · rw [toNat_eq_succ_of_ne_zero hpad, List.replicate_succ, List.cons_append] at hbytes
    obtain ⟨rfl, rfl⟩ := List.cons.inj hbytes
    exact ⟨_, hask (performPopb_of_pad hpad), hp, rfl⟩

theorem drainChars_of_charsReady {s : State} {chars : List Byte} {fuel : Nat} (h : charsReady s chars)
    (hfuel : chars.length < fuel) : (drainChars fuel s).1 = chars :=
  drain_of_ready (fun s hs => ⟨_, _, popc_of_charsReady_nil s hs⟩) popc_of_charsReady_cons h hfuel

theorem drainBytes_of_bytesReady {s : State} {bytes : List Byte} {fuel : Nat} (h : bytesReady s bytes)
    (hfuel : bytes.length < fuel) : (drainBytes fuel s).1 = bytes :=
  drain_of_ready (fun s hs => ⟨_, _, popb_of_bytesReady_nil s hs⟩) popb_of_bytesReady_cons h hfuel

/-- In FAULT every stateful command is refused, so nothing is drained. -/
theorem ask_of_fault {i : Instr} {s : State} {f : State → State} (hi : i.wf = true)
    (hexec : exec i s = .next (stateful i f s)) (hf : s.phase = .fault) : ask (encode i) s = refuseInFault s :=
  ask_encode hi (hexec.trans (congrArg Host.Outcome.next (if_pos hf)))

theorem drainBytes_of_fault {s : State} (hf : s.phase = .fault) (fuel : Nat) : (drainBytes fuel s).1 = [] := by
  cases fuel with
  | zero => rfl
  | succ fuel =>
    have hask : ask (encode .popb) s = respond false (errInfo s) s := ask_of_fault rfl rfl hf
    simp [drainBytes, drain, hask]

/-! ## What the input commands build up (42_encode R111, 43_decode R131) -/

/-- The engine with ACC_BYTES of `c` after CLR and the ENCB commands of `data`. -/
structure EncodeInput (c : Config) (data : List Byte) (s : State) : Prop where
  cfg : s.cfg = c
  phase : s.phase = .idle ∨ s.phase = .encIn
  pad : s.pad.toNat = lead0 data
  lead : s.lead = true ↔ lead0 data = data.length
  acc : s.acc = val256 data
  dstk : s.dstk = []

/-- The engine after CLR and the DECC commands of the characters of `ds`. -/
structure DecodeInput (c : Config) (ds : List Digit) (s : State) : Prop where
  cfg : s.cfg = c
  phase : s.phase = .idle ∨ s.phase = .decIn
  pad : s.pad.toNat = lead1 (ds.map alpha)
  lead : s.lead = true ↔ lead1 (ds.map alpha) = ds.length
  acc : s.acc = val58 ds
  lead_acc : s.lead = true → s.acc = 0

theorem ask_clr (s : State) : ask (encode .clr) s = respond true 0 (clearEngine s) := ask_encode rfl rfl

theorem encodeInput_clr (s : State) : EncodeInput s.cfg [] (ask (encode .clr) s) := by
  rw [ask_clr]
  exact ⟨rfl, .inl rfl, rfl, iff_of_true rfl rfl, rfl, rfl⟩

theorem decodeInput_clr (s : State) : DecodeInput s.cfg [] (ask (encode .clr) s) := by
  rw [ask_clr]
  exact ⟨rfl, .inl rfl, rfl, iff_of_true rfl rfl, rfl, fun _ => rfl⟩

theorem val256_eq_zero {xs : List Byte} (h : lead0 xs = xs.length) : val256 xs = 0 := by
  simpa [h] using val256_lt_significant xs

/-- PAD counted up by one. -/
theorem toNat_add_one {x : BitVec 16} (h : x.toNat < 65535) : (x + 1).toNat = x.toNat + 1 := by
  bv_omega

theorem ne_of_toNat_lt {x : BitVec 16} (h : x.toNat < 65535) : x ≠ 65535 := by
  rintro rfl
  exact absurd h (by decide)

/-- One more byte: counted while every byte was 0, else shifted in, where it fits. -/
theorem EncodeInput.ask_encb {c : Config} {data : List Byte} {s : State} (h : EncodeInput c data s) {b : Byte}
    (hfit : (data ++ [b]).length - lead0 (data ++ [b]) ≤ c.accBytes) (hpad : lead0 (data ++ [b]) ≤ 65535) :
    EncodeInput c (data ++ [b]) (ask (encode (.encb b)) s) := by
  have hle := lead0_le_length data
  rw [List.length_append, List.length_singleton] at hfit
  by_cases hz : lead0 data = data.length ∧ b = 0
  · obtain ⟨hrun, rfl⟩ := hz
    have hrun' : lead0 (data ++ [0]) = lead0 data + 1 := (lead0_concat data 0).trans (if_pos ⟨hrun, rfl⟩)
    have hcount : s.pad.toNat < 65535 := by have := h.pad; omega
    rw [ask_encode rfl (exec_encb_of_zero h.phase (h.lead.2 hrun) (ne_of_toNat_lt hcount))]
    exact {
      cfg := h.cfg
      phase := .inr rfl
      pad := by rw [hrun', ← h.pad]; exact toNat_add_one hcount
      lead := iff_of_true (h.lead.2 hrun) (by rw [hrun', hrun, List.length_append, List.length_singleton])
      acc := by simp [h.acc, val256_concat, val256_eq_zero hrun]
      dstk := h.dstk }
  · have hrun' : lead0 (data ++ [b]) = lead0 data := (lead0_concat data b).trans (if_neg hz)
    have hroom : s.acc < 256 ^ (s.cfg.accBytes - 1) := by
      rw [h.acc, h.cfg]
      exact (val256_lt_significant data).trans_le (Nat.pow_le_pow_right (by decide) (by omega))
    rw [ask_encode rfl (exec_encb_of_fits h.phase (fun hl => hz (hl.imp_left h.lead.1)) hroom)]
    exact {
      cfg := h.cfg
      phase := .inr rfl
      pad := h.pad.trans hrun'.symm
      lead := iff_of_false nofun (by simp [hrun']; omega)
      acc := by simp [h.acc, val256_concat]
      dstk := h.dstk }

/-- Among the characters of digits the leading '1' are the leading digits 0. -/
theorem lead1_map_concat (ds : List Digit) (d : Digit) :
    lead1 ((ds ++ [d]).map alpha) =
      if lead1 (ds.map alpha) = ds.length ∧ d = 0 then lead1 (ds.map alpha) + 1 else lead1 (ds.map alpha) := by
  have hone : alpha d = alpha 0 ↔ d = 0 := ⟨alpha_injective, congrArg alpha⟩
  rw [List.map_append, List.map_singleton, lead1_concat, List.length_map]
  simp only [hone]

/-- One more character of the alphabet: counted while every one was '1', else added in, where it fits. -/
theorem DecodeInput.ask_decc {c : Config} {ds : List Digit} {s : State} (h : DecodeInput c ds s) {d : Digit}
    (hfit : val58 (ds ++ [d]) < 256 ^ c.accBytes) (hpad : lead1 ((ds ++ [d]).map alpha) ≤ 65535) :
    (∃ r u, ask (encode (.decc (alpha d))) s = respond true r u) ∧
      DecodeInput c (ds ++ [d]) (ask (encode (.decc (alpha d))) s) := by
  have hle := lead1_le_length (ds.map alpha)
  have hconcat := lead1_map_concat ds d
  rw [List.length_map] at hle
  rw [val58_concat] at hfit
  by_cases hz : lead1 (ds.map alpha) = ds.length ∧ d = 0
  · obtain ⟨hrun, rfl⟩ := hz
    rw [if_pos ⟨hrun, rfl⟩] at hconcat
    have hcount : s.pad.toNat < 65535 := by have := h.pad; omega
    have hlead := h.lead.2 hrun
    rw [ask_encode rfl (exec_decc_of_one h.phase (digitOf_alpha 0) hlead (ne_of_toNat_lt hcount))]
    refine ⟨⟨_, _, rfl⟩, ?_⟩
    exact {
      cfg := h.cfg
      phase := .inr rfl
      pad := by rw [hconcat, ← h.pad]; exact toNat_add_one hcount
      lead := iff_of_true hlead (by rw [hconcat]; simp [hrun])
      acc := by simp [val58_concat, ← h.acc, h.lead_acc hlead]
      lead_acc := h.lead_acc }
  · rw [if_neg hz] at hconcat
    rw [ask_encode rfl (exec_decc_of_fits h.phase (digitOf_alpha d) (fun hl => hz (hl.imp_left h.lead.1))
      (by rwa [h.acc, h.cfg]))]
    refine ⟨⟨_, _, rfl⟩, ?_⟩
    exact {
      cfg := h.cfg
      phase := .inr rfl
      pad := h.pad.trans hconcat.symm
      lead := iff_of_false nofun (by rw [hconcat]; simp; omega)
      acc := by simp [h.acc, val58_concat]
      lead_acc := nofun }

theorem encodeInput_of_fits {s : State} {data : List Byte} (hfit : data.length - lead0 data ≤ s.cfg.accBytes)
    (hpad : lead0 data ≤ 65535) :
    EncodeInput s.cfg data (askAll (data.map .encb) (ask (encode .clr) s)) := by
  induction data using List.reverseRecOn with
  | nil => exact encodeInput_clr s
  | append_singleton data b ih =>
    have hle := lead0_le_length data
    obtain ⟨hfit', hpad'⟩ : data.length - lead0 data ≤ s.cfg.accBytes ∧ lead0 data ≤ 65535 := by
      rw [lead0_concat, List.length_append, List.length_singleton] at hfit
      rw [lead0_concat] at hpad
      split at hfit <;> split at hpad <;> omega
    rw [List.map_append, askAll_append]
    exact (ih hfit' hpad').ask_encb hfit hpad

theorem decodeInput_of_fits {s : State} {ds : List Digit} (hfit : val58 ds < 256 ^ s.cfg.accBytes)
    (hpad : lead1 (ds.map alpha) ≤ 65535) :
    answersOk ((ds.map alpha).map .decc) (ask (encode .clr) s) ∧
      DecodeInput s.cfg ds (askAll ((ds.map alpha).map .decc) (ask (encode .clr) s)) := by
  induction ds using List.reverseRecOn with
  | nil => exact ⟨trivial, decodeInput_clr s⟩
  | append_singleton ds d ih =>
    obtain ⟨hfit', hpad'⟩ : val58 ds < 256 ^ s.cfg.accBytes ∧ lead1 (ds.map alpha) ≤ 65535 := by
      rw [val58_concat] at hfit
      rw [lead1_map_concat] at hpad
      split at hpad <;> omega
    obtain ⟨hok, hinput⟩ := ih hfit' hpad'
    obtain ⟨hanswer, hnext⟩ := hinput.ask_decc hfit hpad
    rw [List.map_append, List.map_append, askAll_append]
    exact ⟨answersOk_append hok ⟨hanswer, trivial⟩, hnext⟩

/-! ## What ENCF and DECF leave for the pops (42_encode R113, 43_decode R132) -/

/-- After ENCF the pops have `enc data` to deliver (R94). -/
theorem EncodeInput.charsReady_ask_encf {c : Config} {data : List Byte} {s : State} (h : EncodeInput c data s)
    (hfit : data.length - lead0 data ≤ c.accBytes) : charsReady (ask (encode .encf) s) (enc data) := by
  have hp : s.phase = .idle ∨ s.phase = .encIn ∨ s.phase = .encDiv := h.phase.imp_right .inl
  have hacc : s.acc < 256 ^ s.cfg.accBytes := by
    rw [h.acc, h.cfg]
    exact (val256_lt_significant data).trans_le (Nat.pow_le_pow_right (by decide) hfit)
  obtain ⟨d, hexec⟩ := exec_encf_of_room hp (by simpa [h.dstk] using ndigits_le_dstkDepth hacc)
  rw [ask_encode rfl hexec]
  exact ⟨rfl, by simp [enc_eq, h.pad, h.dstk, h.acc]⟩

/-- The pad rule is the source's scan, which leaves out the last character (R132, R135). -/
theorem DecodeInput.pad_after_decf {c : Config} {ds : List Digit} {s : State} (h : DecodeInput c ds s) :
    (if s.lead ∧ s.pad ≠ 0 then s.pad - 1 else s.pad).toNat = lead1 (ds.map alpha).dropLast := by
  have hpad := h.pad
  obtain rfl | ⟨init, d, rfl⟩ := List.eq_nil_or_concat' ds
  · have h0 : s.pad = 0 := BitVec.eq_of_toNat_eq hpad
    simp [h0, lead1]
  · have hinit : ((init ++ [d]).map alpha).dropLast = init.map alpha := by simp
    have hle := lead1_le_length (init.map alpha)
    have hlead := h.lead
    rw [List.length_map] at hle
    rw [lead1_map_concat, List.length_append, List.length_singleton] at hlead
    rw [lead1_map_concat] at hpad
    rw [hinit]
    split at hpad
    next hones =>
      have hne : s.pad ≠ 0 := (bitvec_ne_zero_iff _).2 (by omega)
      have hcount := toNat_eq_succ_of_ne_zero hne
      rw [if_pos ⟨hlead.2 (by rw [if_pos hones, hones.1]), hne⟩]
      omega
    next hones =>
      have hlow : ¬ s.lead = true := fun hl => by
        have := hlead.1 hl
        rw [if_neg hones] at this
        omega
      rw [if_neg fun hc => hlow hc.1, hpad]

/-- After DECF the pops have the bytes of `dec` to deliver (R95). -/
theorem DecodeInput.bytesReady_ask_decf {c : Config} {ds : List Digit} {s : State} (h : DecodeInput c ds s)
    (hc : c.Legal) (hfit : val58 ds < 256 ^ c.accBytes) {bytes : List Byte} (hdec : dec (ds.map alpha) = .ok bytes) :
    bytesReady (ask (encode .decf) s) bytes := by
  have hbytes := Except.ok.inj ((dec_map_alpha ds).symm.trans hdec)
  have hoidx := bytelen_toNat hc hfit
  rw [ask_encode rfl (exec_decf_of_input h.phase), ← hbytes, bytesMin_eq_lowBytes]
  refine ⟨rfl, ?_⟩
  simp only [performDecf, respond_pad, respond_acc, respond_oidx, h.pad_after_decf, h.acc, hoidx]

/-! ## The pseudo-instructions -/

theorem askAll_encodeProgram (data : List Byte) (s : State) :
    askAll (encodeProgram data) s = ask (encode .encf) (askAll (data.map .encb) (ask (encode .clr) s)) :=
  askAll_append (data.map .encb) [.encf] _

theorem askAll_decodeProgram (chars : List Byte) (s : State) :
    askAll (decodeProgram chars) s = ask (encode .decf) (askAll (chars.map .decc) (ask (encode .clr) s)) :=
  askAll_append (chars.map .decc) [.decf] _

/-- An invalid character ends the string with its fault on record, which the closing DECF leaves as it is. -/
theorem sendDecode_of_invalid {s : State} {ds : List Digit} {ch : Byte} (later : List Byte)
    (hfit : val58 ds < 256 ^ s.cfg.accBytes) (hpad : lead1 (ds.map alpha) ≤ 65535) (hch : digitOf ch = none) :
    ∃ t, sendDecode (ds.map alpha ++ ch :: later) s = refuseInFault (raise .einvch (encode (.decc ch)) t) := by
  obtain ⟨hok, hinput⟩ := decodeInput_of_fits hfit hpad
  have hraise := ask_encode rfl (exec_decc_of_invalid hinput.phase hch)
  refine ⟨askAll ((ds.map alpha).map .decc) (ask (encode .clr) s), ?_⟩
  rw [sendDecode, List.map_append, List.map_cons, askWhileOk_append hok, askWhileOk_cons_of_refused hraise]
  exact ask_of_fault rfl rfl rfl

/-- Settles O44: CLR forgets the state, the input commands build up what ENCF and DECF turn into `enc` and `dec`, and
the pops deliver it. -/
theorem pseudoInstructionsAreEncAndDec : Obligations.PseudoInstructionsAreEncAndDec := by
  intro s data chars bytes later ch ds extra hc
  refine ⟨fun hfit hpad => ?_, fun hvalid hfit hpad hdec => ?_, fun hvalid hfit hpad hch => ?_⟩
  · rw [askAll_encodeProgram]
    exact drainChars_of_charsReady ((encodeInput_of_fits hfit hpad).charsReady_ask_encf hfit) (by omega)
  · obtain rfl := eq_map_alpha hvalid
    obtain ⟨hok, hinput⟩ := decodeInput_of_fits hfit hpad
    have hsend : sendDecode (ds.map alpha) s = askAll (decodeProgram (ds.map alpha)) s := by
      rw [sendDecode, askWhileOk_eq_askAll hok, askAll_decodeProgram]
    refine ⟨hsend, ?_⟩
    rw [hsend, askAll_decodeProgram]
    exact drainBytes_of_bytesReady (hinput.bytesReady_ask_decf hc hfit hdec) (by omega)
  · obtain rfl := eq_map_alpha hvalid
    obtain ⟨t, ht⟩ := sendDecode_of_invalid later hfit hpad hch
    rw [ht]
    exact ⟨rfl, fieldLow_encode (.decc ch), drainBytes_of_fault rfl _⟩

end Sys2Proof.Machine
end

section
/-! PROOF. The laws of the reference functions `enc` and `dec` (spec/40_reference_codec.md R81 to R92). -/

namespace Sys2Proof.Machine

/-! ## The minimal sequences (R81) -/

theorem val256_bytesMin (n : Nat) : val256 (bytesMin n) = n := by
  induction n using Nat.strong_induction_on with
  | _ n ih =>
    by_cases h : n = 0
    · subst h
      rfl
    · rw [bytesMin_step h, val256_concat, ih _ (Nat.div_lt_self (Nat.pos_of_ne_zero h) (by decide))]
      simp
      omega

theorem val58_digitsMin (n : Nat) : val58 (digitsMin n) = n := by
  induction n using Nat.strong_induction_on with
  | _ n ih =>
    by_cases h : n = 0
    · subst h
      rfl
    · rw [digitsMin_step h, val58_concat, ih _ (Nat.div_lt_self (Nat.pos_of_ne_zero h) (by decide)), remDigit_val]
      omega

/-- Without a leading zero byte the value would fit in one byte fewer than the least number of bytes. -/
theorem bytesMin_head? (n : Nat) : (bytesMin n).head? ≠ some 0 := by
  intro h
  obtain ⟨bs, hbs⟩ := List.head?_eq_some_iff.1 h
  have hval : val256 bs = n := by simpa [hbs, val256] using val256_bytesMin n
  have hlen : bs.length + 1 = bytelen n := by rw [← bytesMin_length, hbs, List.length_cons]
  have hle : bytelen n ≤ bs.length := (bytelen_le_iff _ _).2 (hval ▸ val256_lt bs)
  omega

theorem digitsMin_head? (n : Nat) : (digitsMin n).head? ≠ some 0 := by
  intro h
  obtain ⟨ds, hds⟩ := List.head?_eq_some_iff.1 h
  have hval : val58 ds = n := by simpa [hds, val58] using val58_digitsMin n
  have hlen : ds.length + 1 = ndigits n := by rw [← digitsMin_length, hds, List.length_cons]
  have hle : ndigits n ≤ ds.length := (ndigits_le_iff _ _).2 (hval ▸ val58_lt ds)
  omega

/-- Settles O45: values, first elements and lengths of the minimal sequences, and the lengths of R8 are the least. -/
theorem minimalSequencesAndLengths : Obligations.MinimalSequencesAndLengths := fun n =>
  ⟨val256_bytesMin n, bytesMin_head? n, bytesMin_length n, lt_pow_bytelen n, fun k => (bytelen_le_iff n k).2,
    val58_digitsMin n, digitsMin_head? n, digitsMin_length n, lt_pow_ndigits n, fun k => (ndigits_le_iff n k).2⟩

/-! ## Zero values and leading runs -/

theorem val256_eq_zero_iff (xs : List Byte) : val256 xs = 0 ↔ lead0 xs = xs.length := by
  refine ⟨fun h => ?_, val256_eq_zero⟩
  induction xs using List.reverseRecOn with
  | nil => rfl
  | append_singleton xs b ih =>
    rw [val256_concat] at h
    have hb : b = 0 := BitVec.eq_of_toNat_eq (show b.toNat = 0 by omega)
    have hrun := ih (by omega)
    rw [lead0_concat, if_pos ⟨hrun, hb⟩, hrun, List.length_append, List.length_singleton]

theorem val58_eq_zero_iff (ds : List Digit) : val58 ds = 0 ↔ lead1 (ds.map alpha) = ds.length := by
  induction ds using List.reverseRecOn with
  | nil => exact iff_of_true rfl rfl
  | append_singleton ds d ih =>
    have hle := lead1_le_length (ds.map alpha)
    rw [List.length_map] at hle
    rw [val58_concat, lead1_map_concat, List.length_append, List.length_singleton]
    simp only [Fin.ext_iff, Fin.val_zero]
    split <;> omega

/-- A run of `c` in front of what does not begin with `c` is the whole leading run. -/
theorem length_takeWhile_replicate_append (c : Byte) (k : Nat) {ys : List Byte} (hy : ys.head? ≠ some c) :
    ((List.replicate k c ++ ys).takeWhile (· == c)).length = k := by
  have hend : ys.takeWhile (· == c) = [] := by
    cases ys with
    | nil => rfl
    | cons y ys => exact List.takeWhile_cons_of_neg (by simpa using hy)
  rw [List.takeWhile_append_of_pos (by simp), hend, List.append_nil, List.length_replicate]

theorem lead0_replicate_append (k : Nat) {ys : List Byte} (hy : ys.head? ≠ some 0) :
    lead0 (List.replicate k 0 ++ ys) = k :=
  length_takeWhile_replicate_append 0 k hy

theorem lead1_replicate_append (k : Nat) {ys : List Byte} (hy : ys.head? ≠ some (alpha 0)) :
    lead1 (List.replicate k (alpha 0) ++ ys) = k :=
  length_takeWhile_replicate_append (alpha 0) k hy

theorem lead0_replicate (k : Nat) : lead0 (List.replicate k 0) = k := by
  simpa using lead0_replicate_append k (ys := []) nofun

theorem lead1_replicate (k : Nat) : lead1 (List.replicate k (alpha 0)) = k := by
  simpa using lead1_replicate_append k (ys := []) nofun

theorem lead0_take (k : Nat) (xs : List Byte) : lead0 (xs.take k) = min k (lead0 xs) := by
  rw [lead0, ← List.take_takeWhile, List.length_take, lead0]

theorem lead1_dropLast (xs : List Byte) : lead1 xs.dropLast = min (lead1 xs) (xs.length - 1) := by
  rw [List.dropLast_eq_take, lead1, ← List.take_takeWhile, List.length_take, lead1, Nat.min_comm]

/-- Only the character of digit 0 is `ALPHA[0]`. -/
theorem digitsMin_map_head? (n : Nat) : ((digitsMin n).map alpha).head? ≠ some (alpha 0) := by
  rw [List.head?_map]
  intro h
  obtain ⟨d, hd, heq⟩ := Option.map_eq_some_iff.1 h
  exact digitsMin_head? n (alpha_injective heq ▸ hd)

theorem val256_replicate_append (k : Nat) (ys : List Byte) : val256 (List.replicate k 0 ++ ys) = val256 ys := by
  rw [val256_append, (val256_eq_zero_iff _).2 ((lead0_replicate k).trans List.length_replicate.symm)]
  simp

theorem val58_replicate (k : Nat) : val58 (List.replicate k 0) = 0 :=
  (val58_eq_zero_iff _).2 (by rw [List.map_replicate, lead1_replicate, List.length_replicate])

theorem val58_replicate_append (k : Nat) (ys : List Digit) : val58 (List.replicate k 0 ++ ys) = val58 ys := by
  simp [val58_append, val58_replicate]

/-- A list is empty, or has an element other than `c`, or is a run of `c`. -/
theorem nil_or_exists_ne_or_replicate (c : Byte) (xs : List Byte) :
    (xs = [] ∨ ∃ x ∈ xs, x ≠ c) ∨ ∃ k, xs = List.replicate (k + 1) c := by
  by_cases h : ∀ x ∈ xs, x = c
  · cases xs with
    | nil => exact .inl (.inl rfl)
    | cons x xs => exact .inr ⟨xs.length, List.eq_replicate_iff.2 ⟨rfl, h⟩⟩
  · push Not at h
    exact .inl (.inr h)

/-- An element other than `c` ends the leading run of `c`. -/
theorem length_takeWhile_lt {c : Byte} {xs : List Byte} (h : ∃ x ∈ xs, x ≠ c) :
    (xs.takeWhile (· == c)).length < xs.length := by
  obtain ⟨x, hx, hne⟩ := h
  refine lt_of_le_of_ne (List.takeWhile_sublist _).length_le fun hlen => hne ?_
  have hall := List.takeWhile_eq_self_iff.1 ((List.takeWhile_sublist (· == c)).eq_of_length hlen)
  simpa using hall x hx

theorem lead0_lt_length {xs : List Byte} (h : ∃ x ∈ xs, x ≠ 0) : lead0 xs < xs.length := length_takeWhile_lt h

theorem lead1_lt_length {xs : List Byte} (h : ∃ x ∈ xs, x ≠ alpha 0) : lead1 xs < xs.length := length_takeWhile_lt h

/-! ## A sequence is its leading run and the minimal sequence of its value -/

theorem replicate_lead0_append_bytesMin (xs : List Byte) :
    List.replicate (lead0 xs) 0 ++ bytesMin (val256 xs) = xs := by
  induction xs using List.reverseRecOn with
  | nil => rfl
  | append_singleton xs b ih =>
    by_cases hz : lead0 xs = xs.length ∧ b = 0
    · obtain ⟨hrun, rfl⟩ := hz
      have hv := val256_eq_zero hrun
      rw [hv, bytesMin_zero, List.append_nil] at ih
      rw [lead0_concat, if_pos ⟨hrun, rfl⟩, val256_concat, hv, List.replicate_succ', ih]
      simp
    · have hne : val256 (xs ++ [b]) ≠ 0 := fun h0 => hz (by
        have hrun := (val256_eq_zero_iff _).1 h0
        have hle := lead0_le_length xs
        rw [lead0_concat, if_neg hz, List.length_append, List.length_singleton] at hrun
        omega)
      have hb := b.isLt
      have hquot : val256 (xs ++ [b]) / 256 = val256 xs := by rw [val256_concat]; omega
      have hrem : val256 (xs ++ [b]) % 256 = b.toNat := by rw [val256_concat]; omega
      rw [lead0_concat, if_neg hz, bytesMin_step hne, hquot, hrem, ← List.append_assoc, ih]
      simp

/-- The digits of a valid string, likewise. -/
theorem replicate_lead1_append_digitsMin (ds : List Digit) :
    List.replicate (lead1 (ds.map alpha)) 0 ++ digitsMin (val58 ds) = ds := by
  induction ds using List.reverseRecOn with
  | nil => rfl
  | append_singleton ds d ih =>
    rw [lead1_map_concat]
    by_cases hz : lead1 (ds.map alpha) = ds.length ∧ d = 0
    · obtain ⟨hrun, rfl⟩ := hz
      have hv := (val58_eq_zero_iff ds).2 hrun
      rw [hv, digitsMin_zero, List.append_nil] at ih
      rw [if_pos ⟨hrun, rfl⟩, val58_concat, hv, List.replicate_succ', ih]
      simp
    · have hne : val58 (ds ++ [d]) ≠ 0 := fun h0 => hz (by
        have hrun := (val58_eq_zero_iff _).1 h0
        have hle := lead1_le_length (ds.map alpha)
        rw [List.length_map] at hle
        rw [lead1_map_concat, if_neg hz, List.length_append, List.length_singleton] at hrun
        omega)
      have hd := d.isLt
      have hquot : val58 (ds ++ [d]) / 58 = val58 ds := by rw [val58_concat]; omega
      have hrem : remDigit (val58 (ds ++ [d])) = d := Fin.ext (by rw [remDigit_val, val58_concat]; omega)
      rw [if_neg hz, digitsMin_step hne, hquot, hrem, ← List.append_assoc, ih]

/-! ## The closed forms (R82, R83, R85, R86) -/

theorem enc_replicate (k : Nat) : enc (List.replicate k 0) = List.replicate k (alpha 0) := by
  have hval : val256 (List.replicate k 0) = 0 := by
    simpa [val256] using val256_replicate_append k []
  rw [enc_eq, lead0_replicate, hval]
  simp

/-- Settles O46: `enc_eq`, and a run of zero bytes has the value 0, which has no digits. -/
theorem encIsPadThenDigits : Obligations.EncIsPadThenDigits := ⟨enc_eq, enc_replicate⟩

/-- The scan leaves out the last character (R135). -/
theorem dec_of_valid {chars : List Byte} {ds : List Digit} (h : chars.map digitOf = ds.map some) :
    dec chars = .ok (List.replicate (min (lead1 chars) (chars.length - 1)) 0 ++ bytesMin (val58 ds)) := by
  obtain rfl := eq_map_alpha h
  rw [dec_map_alpha, lead1_dropLast]

theorem map_digitOf_map_alpha (ds : List Digit) : (ds.map alpha).map digitOf = ds.map some := by
  simp [digitOf_alpha]

theorem dec_replicate (k : Nat) : dec (List.replicate (k + 1) (alpha 0)) = .ok (List.replicate k 0) := by
  have hvalid : (List.replicate (k + 1) (alpha 0)).map digitOf = (List.replicate (k + 1) 0).map some := by
    rw [← List.map_replicate, map_digitOf_map_alpha]
  rw [dec_of_valid hvalid, lead1_replicate, val58_replicate]
  simp

/-- Settles O47: `dec_of_valid`, and a run of '1' has the value 0, which has no bytes. -/
theorem decIsPadThenBytes : Obligations.DecIsPadThenBytes := ⟨fun _ _ => dec_of_valid, dec_replicate⟩

/-- What is left of the leading '1' of a valid string that is empty or not all '1': all of them. -/
theorem dec_of_not_all_ones {chars : List Byte} {ds : List Digit} (h : chars.map digitOf = ds.map some)
    (hne : chars = [] ∨ ∃ x ∈ chars, x ≠ alpha 0) :
    dec chars = .ok (List.replicate (lead1 chars) 0 ++ bytesMin (val58 ds)) := by
  have hmin : min (lead1 chars) (chars.length - 1) = lead1 chars := by
    obtain rfl | hne := hne
    · rfl
    · have := lead1_lt_length hne
      omega
  rw [dec_of_valid h, hmin]

/-! ## The digits of an encoding -/

/-- The digits whose characters `enc` gives. -/
def encDigits (data : List Byte) : List Digit := List.replicate (lead0 data) 0 ++ digitsMin (val256 data)

theorem enc_eq_map (data : List Byte) : enc data = (encDigits data).map alpha := by
  rw [enc_eq, encDigits, List.map_append, List.map_replicate]

theorem val58_encDigits (data : List Byte) : val58 (encDigits data) = val256 data := by
  rw [encDigits, val58_replicate_append, val58_digitsMin]

theorem lead1_enc (data : List Byte) : lead1 (enc data) = lead0 data := by
  rw [enc_eq]
  exact lead1_replicate_append _ (digitsMin_map_head? _)

theorem length_enc (data : List Byte) : (enc data).length = lead0 data + ndigits (val256 data) := by
  simp [enc_eq, digitsMin_length]

/-! ## The round trips (R89, R90) -/

theorem dec_enc {data : List Byte} (h : data = [] ∨ ∃ x ∈ data, x ≠ 0) : dec (enc data) = .ok data := by
  have hvalid : (enc data).map digitOf = (encDigits data).map some := by
    rw [enc_eq_map, map_digitOf_map_alpha]
  have hmin : min (lead0 data) ((enc data).length - 1) = lead0 data := by
    obtain rfl | hne := h
    · rfl
    · have hval : val256 data ≠ 0 := fun h0 => (lead0_lt_length hne).ne ((val256_eq_zero_iff data).1 h0)
      have hdigits := ndigits_ne_zero hval
      rw [length_enc]
      omega
  rw [dec_of_valid hvalid, lead1_enc, hmin, val58_encDigits, replicate_lead0_append_bytesMin]

theorem dec_enc_replicate (k : Nat) : dec (enc (List.replicate (k + 1) 0)) = .ok (List.replicate k 0) := by
  rw [enc_replicate, dec_replicate]

/-- Settles O48: an input that is not empty and has no other byte is a run of zeros, which loses one. -/
theorem decOfEncIsTheInputButForAllZero : Obligations.DecOfEncIsTheInputButForAllZero := by
  refine ⟨fun b => ⟨fun h => ?_, dec_enc⟩, dec_enc_replicate⟩
  obtain hb | ⟨k, rfl⟩ := nil_or_exists_ne_or_replicate 0 b
  · exact hb
  · have hlen := congrArg List.length (Except.ok.inj ((dec_enc_replicate k).symm.trans h))
    simp at hlen

theorem enc_replicate_append_bytesMin (ds : List Digit) :
    enc (List.replicate (lead1 (ds.map alpha)) 0 ++ bytesMin (val58 ds)) = ds.map alpha := by
  have hdigits : encDigits (List.replicate (lead1 (ds.map alpha)) 0 ++ bytesMin (val58 ds)) = ds := by
    rw [encDigits, lead0_replicate_append _ (bytesMin_head? _), val256_replicate_append, val256_bytesMin,
      replicate_lead1_append_digitsMin]
  rw [enc_eq_map, hdigits]

/-- Settles O49: the string is its leading '1' and the digits of its value, which is what `enc` gives back. -/
theorem encOfDecIsTheStringButForAllOnes : Obligations.EncOfDecIsTheStringButForAllOnes := by
  refine ⟨fun chars ds h hne => ⟨_, dec_of_not_all_ones h hne, ?_⟩, fun k => ⟨_, dec_replicate k, enc_replicate k⟩⟩
  obtain rfl := eq_map_alpha h
  exact enc_replicate_append_bytesMin ds

/-! ## Lengths and leading runs (R91) -/

/-- Settles O50: read off the closed forms, since a minimal sequence does not begin with a zero. -/
theorem lengthsOfEncAndDec : Obligations.LengthsOfEncAndDec := by
  refine ⟨fun b => ⟨length_enc b, lead1_enc b⟩, fun chars ds b _ h hdec => ?_, fun chars ds b h hdec hne => ?_⟩
  · obtain rfl := Except.ok.inj ((dec_of_valid h).symm.trans hdec)
    simp [bytesMin_length]
  · obtain rfl := Except.ok.inj ((dec_of_not_all_ones h hne).symm.trans hdec)
    exact lead0_replicate_append _ (bytesMin_head? _)

/-! ## The alphabet (R92) -/

/-- The loop ends with a value only when it found a digit for every character. -/
theorem digitOf_ne_none_of_decLoop {n v : Nat} {chars : List Byte} (h : decLoop n chars = .ok v) :
    ∀ ch ∈ chars, digitOf ch ≠ none := by
  induction chars generalizing n with
  | nil => nofun
  | cons c cs ih =>
    cases hc : digitOf c with
    | none => simp [decLoop, hc] at h
    | some d =>
      rw [decLoop, hc] at h
      exact List.forall_mem_cons.2 ⟨by simp [hc], ih h⟩

theorem digitOf_ne_none_of_dec {chars bytes : List Byte} (h : dec chars = .ok bytes) :
    ∀ ch ∈ chars, digitOf ch ≠ none := by
  cases chars with
  | nil => nofun
  | cons c cs =>
    cases hloop : decLoop 0 (c :: cs) with
    | error e => simp [dec, hloop] at h
    | ok v => exact digitOf_ne_none_of_decLoop hloop

/-- The leading '1' of an encoding give the zero bytes back, and its digits the value. -/
theorem enc_injective : Function.Injective enc := by
  intro b b' h
  have hlead : lead0 b = lead0 b' := by rw [← lead1_enc, h, lead1_enc]
  have hdigits : encDigits b = encDigits b' := by
    rw [enc_eq_map, enc_eq_map] at h
    exact List.map_injective_iff.2 (fun _ _ => alpha_injective) h
  have hval : val256 b = val256 b' := by rw [← val58_encDigits, hdigits, val58_encDigits]
  rw [← replicate_lead0_append_bytesMin b, hlead, hval, replicate_lead0_append_bytesMin]

/-- Settles O51: `enc` gives the characters of its digits, `dec` finds a digit for every character, and `dec` takes
"1" and the empty string to the same bytes. -/
theorem onlyAlphabetCharactersAppear : Obligations.OnlyAlphabetCharactersAppear := by
  refine ⟨fun b ch hch => ?_, fun s b hdec ch hch => ?_, fun _ _ => (enc_injective ·), dec_replicate 0, rfl⟩
  · rw [enc_eq_map] at hch
    obtain ⟨d, -, hd⟩ := List.mem_map.1 hch
    exact ⟨d, hd⟩
  · obtain ⟨d, hd⟩ := Option.ne_none_iff_exists'.1 (digitOf_ne_none_of_dec hdec ch hch)
    exact ⟨d, alpha_of_digitOf hd⟩

end Sys2Proof.Machine
end

section
/-! PROOF. What the host reads when it presents a list of commands (spec/30_encoding.md R65, R75), in the shape of a
Hoare logic: rules for one command, for a list, for the pops and for the commands after a fault. -/

namespace Sys2Proof.Machine

/-- `Sends P is views Q`: when the host presents the commands `is` in a state with the invariants and `P`, they are
answered with the OK, FLT and DATA of `views`, one after another, and leave `Q` and the rest of what it presents. -/
def Sends (P : State → Prop) (is : List Instr) (views : List (Bool × Bool × Nat)) (Q : State → Prop) : Prop :=
  ∀ (s : State) (rest : List HostEvent), s.Inv → P s → s.host = presents is ++ rest →
    ∃ t rs, runSteps is.length s = .next t ∧ t.Inv ∧ Q t ∧ t.host = rest ∧ t.rsp = s.rsp ++ rs ∧
      rs.map responseView = views

/-- `P` does not speak of what the host will present. -/
def HostBlind (P : State → Prop) : Prop := ∀ (s : State) (host : List HostEvent), P s → P { s with host := host }

/-! ## The rules for lists of commands -/

theorem runSteps_add {j k : Nat} {s t : State} (h : runSteps j s = .next t) : runSteps (j + k) s = runSteps k t := by
  induction j generalizing s with
  | zero =>
    cases h
    rw [Nat.zero_add]
  | succ j ih =>
    obtain ⟨u, hu⟩ := step_total s
    rw [runSteps_succ hu] at h
    rw [Nat.succ_add, runSteps_succ hu, ih h]

theorem Sends.nil (P : State → Prop) : Sends P [] [] P :=
  fun s _ hs hp hhost => ⟨s, [], rfl, hs, hp, hhost, (List.append_nil _).symm, rfl⟩

theorem Sends.append {P Q R : State → Prop} {is js : List Instr} {vs ws : List (Bool × Bool × Nat)}
    (his : Sends P is vs Q) (hjs : Sends Q js ws R) : Sends P (is ++ js) (vs ++ ws) R := by
  intro s rest hs hp hhost
  rw [presents_append, List.append_assoc] at hhost
  obtain ⟨t, rs, hrun, ht, hq, hth, hrsp, rfl⟩ := his s _ hs hp hhost
  obtain ⟨u, rs', hrun', hu, hr, huh, hrsp', rfl⟩ := hjs t rest ht hq hth
  refine ⟨u, rs ++ rs', ?_, hu, hr, huh, ?_, List.map_append⟩
  · rw [List.length_append, runSteps_add hrun, hrun']
  · rw [hrsp', hrsp, List.append_assoc]

theorem Sends.cons {P Q R : State → Prop} {i : Instr} {is : List Instr} {v : Bool × Bool × Nat}
    {vs : List (Bool × Bool × Nat)} (hi : Sends P [i] [v] Q) (his : Sends Q is vs R) :
    Sends P (i :: is) (v :: vs) R :=
  hi.append his

theorem Sends.of_imp {P P' Q : State → Prop} {is : List Instr} {vs : List (Bool × Bool × Nat)}
    (h : Sends P is vs Q) (himp : ∀ s, P' s → P s) : Sends P' is vs Q :=
  fun s rest hs hp => h s rest hs (himp s hp)

/-! ## The rule for one command -/

/-- The step on a command word is the answer to that word, with the rest still to come. -/
theorem step_eq_ask {s : State} {w : CmdWord} {rest : List HostEvent} (hhost : s.host = .command w :: rest) :
    step s = .next (ask w { s with host := rest }) := by
  obtain ⟨t, ht⟩ := step_total s
  have hpresent : present w { s with host := rest } = s := by simp [present, ← hhost]
  simp [ask, hpresent, ht]

/-- One command: OK and DATA are those of its answer, and the invariants tie FLT to the phase it leaves. -/
theorem sends_one {P Q : State → Prop} {i : Instr} {ok flt : Bool} {n : Nat} (hP : HostBlind P)
    (hask : ∀ s, P s → ∃ d u, ask (encode i) s = respond ok d u ∧ d.toNat = n ∧ Q (respond ok d u))
    (hflt : ∀ t, Q t → (flt = true ↔ t.phase = .fault)) : Sends P [i] [(ok, flt, n)] Q := by
  intro s rest hs hp hhost
  have hstep := step_eq_ask (rest := rest) hhost
  obtain ⟨d, u, heq, rfl, hq⟩ := hask { s with host := rest } (hP s rest hp)
  rw [heq] at hstep
  have hinv := (step_cases hstep).inv hs
  obtain ⟨ok', d', u', -, heq', hrest, hrsp⟩ := (step_cases hstep).answered hhost
  obtain ⟨r, hadds, hview⟩ := answerWith_adds_view ok d.isLt u
  rw [← respond_eq_answerWith] at hadds
  have herr : decide (u.err ≠ none) = flt := by
    rw [← Bool.coe_iff_coe, decide_eq_true_iff, hflt _ hq]
    exact hinv.fault_iff.symm
  have hkept : u.rsp = s.rsp := by
    have hlast := hadds.symm.trans ((congrArg State.rsp heq').trans (congrArg (· ++ [_]) hrsp))
    exact (List.append_inj' hlast rfl).1
  refine ⟨_, [r], runSteps_succ hstep, hinv, hq, (congrArg State.host heq').trans hrest, hkept ▸ hadds, ?_⟩
  rw [List.map_singleton, hview, herr]

/-! ## Conversations with an engine after reset -/

/-- Two lists of commands, one after the other, and the state between them. -/
theorem Sends.run_both {P Q R : State → Prop} {is js : List Instr} {vs ws : List (Bool × Bool × Nat)}
    (his : Sends P is vs Q) (hjs : Sends Q js ws R) {c : Config} (hc : c.Legal) (before : List RspWord)
    (hP : P (freshEngine c (presents (is ++ js)) before)) :
    ∃ t u, runSteps is.length (freshEngine c (presents (is ++ js)) before) = .next t ∧ Q t ∧
      runSteps js.length t = .next u ∧ R u ∧ (u.rsp.drop before.length).map responseView = vs ++ ws := by
  obtain ⟨t, rs, hrun, ht, hq, hhost, hrsp, rfl⟩ :=
    his _ _ (inv_freshEngine hc _ before) hP (presents_append is js)
  obtain ⟨u, rs', hrun', -, hr, -, hrsp', rfl⟩ := hjs t [] ht hq (hhost.trans (List.append_nil _).symm)
  have hsent : u.rsp = before ++ (rs ++ rs') := by rw [hrsp', hrsp, List.append_assoc]; rfl
  exact ⟨t, u, hrun, hq, hrun', hr, by rw [hsent, List.drop_left, List.map_append]⟩

theorem Sends.run {P Q : State → Prop} {is : List Instr} {views : List (Bool × Bool × Nat)}
    (h : Sends P is views Q) {c : Config} (hc : c.Legal) (before : List RspWord)
    (hP : P (freshEngine c (presents is) before)) :
    ∃ u, runSteps is.length (freshEngine c (presents is) before) = .next u ∧ Q u ∧
      (u.rsp.drop before.length).map responseView = views := by
  rw [← List.append_nil is] at hP
  obtain ⟨t, u, hrun, hq, hnil, -, hviews⟩ := h.run_both (.nil Q) hc before hP
  cases hnil
  rw [List.append_nil] at hrun hviews
  exact ⟨t, hrun, hq, hviews⟩

/-! ## After a fault everything is refused (60_exceptions R178, R179) -/

/-- The engine in FAULT with the cause and the low byte that it recorded. -/
structure FaultRecorded (cause : Cause) (low : Byte) (s : State) : Prop where
  phase : s.phase = .fault
  err : s.err = some cause
  errch : s.errch = low

theorem FaultRecorded.errInfo_toNat {cause : Cause} {low : Byte} {s : State} (h : FaultRecorded cause low s) :
    (errInfo s).toNat = causeNumber cause * 256 + low.toNat := by
  rw [Machine.errInfo_toNat, errInfoNumber, h.err, h.errch, errNumber]

/-- In FAULT every command is refused that FAULT is no phase of. -/
theorem ask_refused {i : Instr} {s : State} (hi : .fault ∉ legalPhases i) (hf : s.phase = .fault) :
    ask (encode i) s = refuseInFault s := by
  cases i with
  | encb | divs | encf | popc | decc | decf | popb => exact ask_of_fault rfl rfl hf
  | _ => exact absurd (by simp [legalPhases]) hi

theorem sends_refused {cause : Cause} {low : Byte} {is : List Instr} (his : ∀ i ∈ is, .fault ∉ legalPhases i) :
    Sends (FaultRecorded cause low) is
      (List.replicate is.length (false, true, causeNumber cause * 256 + low.toNat)) (FaultRecorded cause low) := by
  induction is with
  | nil => exact .nil _
  | cons i is ih =>
    obtain ⟨hi, his⟩ := List.forall_mem_cons.1 his
    refine .cons (sends_one (fun s host h => ⟨h.phase, h.err, h.errch⟩) (fun s h => ?_) fun t h => ?_) (ih his)
    · exact ⟨errInfo s, s, ask_refused hi h.phase, h.errInfo_toNat, h.phase, h.err, h.errch⟩
    · exact iff_of_true rfl h.phase

/-- A command that raises a fault, with everything that the host presents after it. -/
theorem Sends.fault {P Q : State → Prop} {good later : List Instr} {views : List (Bool × Bool × Nat)} {i : Instr}
    {cause : Cause} (hgood : Sends P good views Q) (hQ : HostBlind Q)
    (hraise : ∀ s, Q s → ask (encode i) s = raise cause (encode i) s)
    (hlater : ∀ j ∈ later, .fault ∉ legalPhases j) :
    Sends P (good ++ i :: later)
      (views ++ List.replicate (later.length + 1) (false, true, causeNumber cause * 256 + (lowByteOf i).toNat))
      (FaultRecorded cause (lowByteOf i)) := by
  refine hgood.append (.cons (sends_one hQ (fun s h => ?_) fun t h => ?_) (sends_refused hlater))
  · have hrecord : FaultRecorded cause (lowByteOf i) (raise cause (encode i) s) := ⟨rfl, rfl, fieldLow_encode i⟩
    exact ⟨_, _, hraise s h, hrecord.errInfo_toNat, hrecord⟩
  · exact iff_of_true rfl h.phase

/-- The commands that send symbols, the one that ends them and the pops: none is performed in FAULT. -/
theorem not_performed_in_fault (input : Byte → Instr) (finish pop : Instr)
    (hinput : ∀ b, .fault ∉ legalPhases (input b)) (hfinish : .fault ∉ legalPhases finish)
    (hpop : .fault ∉ legalPhases pop) (symbols : List Byte) (m : Nat) :
    ∀ i ∈ symbols.map input ++ finish :: List.replicate m pop, .fault ∉ legalPhases i := by
  intro i hi
  rw [List.mem_append, List.mem_map, List.mem_cons, List.mem_replicate] at hi
  obtain ⟨b, -, rfl⟩ | rfl | ⟨-, rfl⟩ := hi
  · exact hinput b
  · exact hfinish
  · exact hpop

/-! ## The pops (42_encode R114, 43_decode R133) -/

/-- What `m` pops answer when `symbols` are to be delivered: the symbols, and then benign refusals. -/
def popViews (symbols : List Byte) (m : Nat) : List (Bool × Bool × Nat) :=
  (symbols.map (fun b : Byte => (true, false, b.toNat)) ++ List.replicate m (false, false, 0)).take m

theorem popViews_nil_succ (m : Nat) : popViews [] (m + 1) = (false, false, 0) :: popViews [] m := by
  simp [popViews, List.replicate_succ]

theorem popViews_cons_succ (b : Byte) (bs : List Byte) (m : Nat) :
    popViews (b :: bs) (m + 1) = (true, false, b.toNat) :: popViews bs m := by
  rw [popViews, List.map_cons, List.cons_append, List.take_succ_cons, List.replicate_succ', ← List.append_assoc,
    List.take_append_of_le_length (by simp), popViews]

/-- When `ready s bs` says that the pops deliver `bs` from `s`, they are answered with `bs` and then refused. -/
theorem sends_pops {pop : Instr} {ready : State → List Byte → Prop} (hblind : ∀ bs, HostBlind (ready · bs))
    (hphase : ∀ s bs, ready s bs → s.phase ≠ .fault)
    (hend : ∀ s, ready s [] → ask (encode pop) s = respond false 0 s ∧ ready (respond false 0 s) [])
    (hnext : ∀ s b bs, ready s (b :: bs) →
      ∃ u, ask (encode pop) s = respond true (dataOfByte b) u ∧ ready (respond true (dataOfByte b) u) bs)
    (bs : List Byte) (m : Nat) :
    Sends (ready · bs) (List.replicate m pop) (popViews bs m) (ready · (bs.drop m)) := by
  have hflt (bs : List Byte) (t : State) (ht : ready t bs) : false = true ↔ t.phase = .fault :=
    iff_of_false nofun (hphase t bs ht)
  induction m generalizing bs with
  | zero => exact .nil _
  | succ m ih =>
    rw [List.replicate_succ]
    cases bs with
    | nil =>
      rw [popViews_nil_succ]
      refine .cons (sends_one (hblind []) (fun s hs => ?_) (hflt [])) (by simpa using ih [])
      obtain ⟨hask, hready⟩ := hend s hs
      exact ⟨0, s, hask, rfl, hready⟩
    | cons b bs =>
      rw [popViews_cons_succ]
      refine .cons (sends_one (hblind _) (fun s hs => ?_) (hflt bs)) (ih bs)
      obtain ⟨u, hask, hready⟩ := hnext s b bs hs
      exact ⟨_, u, hask, dataOfByte_toNat b, hready⟩

theorem sends_popc (chars : List Byte) (m : Nat) :
    Sends (charsReady · chars) (List.replicate m .popc) (popViews chars m) (charsReady · (chars.drop m)) :=
  sends_pops (fun _ _ _ h => h) (fun _ _ h hf => nomatch h.1.symm.trans hf)
    (fun s hs => ⟨popc_of_charsReady_nil s hs, hs⟩) popc_of_charsReady_cons chars m

theorem sends_popb (bytes : List Byte) (m : Nat) :
    Sends (bytesReady · bytes) (List.replicate m .popb) (popViews bytes m) (bytesReady · (bytes.drop m)) :=
  sends_pops (fun _ _ _ h => h) (fun _ _ h hf => nomatch h.1.symm.trans hf)
    (fun s hs => ⟨popb_of_bytesReady_nil s hs, hs⟩) popb_of_bytesReady_cons bytes m

/-- With every character delivered the operation is over (R215). -/
theorem operationDone_of_charsReady {s : State} (h : charsReady s []) : operationDone s := by
  obtain ⟨hp, hchars⟩ := h
  obtain ⟨hpad, hd⟩ := List.append_eq_nil_iff.1 hchars.symm
  have hzero : s.pad = 0 := BitVec.eq_of_toNat_eq (by simpa using hpad)
  have hempty : s.dstk = [] := by simpa using hd
  exact ⟨.inl hp, by simpa [hzero, hempty] using flagORDY_of_encOut hp⟩

/-- With every byte delivered the operation is over (R215). -/
theorem operationDone_of_bytesReady {s : State} (h : bytesReady s []) : operationDone s := by
  obtain ⟨hp, hbytes⟩ := h
  obtain ⟨hpad, ho⟩ := List.append_eq_nil_iff.1 hbytes.symm
  have hzero : s.pad = 0 := BitVec.eq_of_toNat_eq (by simpa using hpad)
  have hindex : s.oidx = 0 := BitVec.eq_of_toNat_eq (by simpa [lowBytes] using ho)
  exact ⟨.inr hp, by simpa [hzero, hindex] using flagORDY_of_decOut hp⟩

end Sys2Proof.Machine
end

section
/-! PROOF. The encode commands compute `enc` (spec/40_reference_codec.md R94). -/

namespace Sys2Proof.Machine

/-! ## The input (42_encode R111) -/

theorem EncodeInput.hostBlind (c : Config) (data : List Byte) : HostBlind (EncodeInput c data) :=
  fun _ _ h => { h with }

theorem EncodeInput.phase_ne_fault {c : Config} {data : List Byte} {s : State} (h : EncodeInput c data s) :
    s.phase ≠ .fault := fun hf => by simpa [hf] using h.phase

theorem encodeInput_freshEngine (c : Config) (events : List HostEvent) (before : List RspWord) :
    EncodeInput c [] (freshEngine c events before) :=
  ⟨rfl, .inl rfl, rfl, iff_of_true rfl rfl, rfl, rfl⟩

/-- An ENCB that does not fault answers with DATA 0. -/
theorem ask_encb_answer {b : Byte} {s : State} (hp : s.phase = .idle ∨ s.phase = .encIn)
    (hok : (ask (encode (.encb b)) s).phase ≠ .fault) : ∃ u, ask (encode (.encb b)) s = respond true 0 u := by
  rw [ask_encode rfl (exec_encb_of_input b hp)] at hok ⊢
  unfold performEncb at hok ⊢
  split_ifs at hok ⊢
  · exact absurd rfl hok
  · exact ⟨_, rfl⟩
  · exact absurd rfl hok
  · exact ⟨_, rfl⟩

/-- Input that fits, fitted before its last byte. -/
theorem encodeFits_of_concat {data : List Byte} {b : Byte} {n : Nat}
    (hfit : (data ++ [b]).length - lead0 (data ++ [b]) ≤ n) (hpad : lead0 (data ++ [b]) ≤ 65535) :
    data.length - lead0 data ≤ n ∧ lead0 data ≤ 65535 := by
  have hle := lead0_le_length data
  rw [lead0_concat] at hfit hpad
  rw [List.length_append, List.length_singleton] at hfit
  split at hfit <;> split at hpad <;> omega

theorem sends_encb {c : Config} {data : List Byte} (hfit : data.length - lead0 data ≤ c.accBytes)
    (hpad : lead0 data ≤ 65535) :
    Sends (EncodeInput c []) (data.map .encb) (List.replicate data.length (true, false, 0)) (EncodeInput c data) := by
  induction data using List.reverseRecOn with
  | nil => exact .nil _
  | append_singleton data b ih =>
    obtain ⟨hfit', hpad'⟩ := encodeFits_of_concat hfit hpad
    rw [List.map_append, List.length_append, ← List.replicate_append_replicate]
    refine (ih hfit' hpad').append (sends_one (.hostBlind c data) (fun s h => ?_) fun t h => ?_)
    · have hnext := h.ask_encb hfit hpad
      obtain ⟨u, hu⟩ := ask_encb_answer h.phase hnext.phase_ne_fault
      exact ⟨0, u, hu, rfl, hu ▸ hnext⟩
    · exact iff_of_false nofun h.phase_ne_fault

/-! ## ENCF (42_encode R113) -/

/-- After ENCF: what the pops have to deliver, and the components that R94 names. -/
structure EncodeOutput (data : List Byte) (s : State) : Prop where
  ready : charsReady s (enc data)
  pad : s.pad.toNat = lead0 data
  sp : s.dstk.length = ndigits (val256 data)
  acc : s.acc = 0

/-- DATA of ENCF is SP after it. -/
theorem exec_encf_answer {s : State} (hp : s.phase = .idle ∨ s.phase = .encIn ∨ s.phase = .encDiv)
    (hroom : s.dstk.length + ndigits s.acc ≤ dstkDepth s.cfg) :
    exec .encf s =
      .next (respond true (BitVec.ofNat 16 (s.dstk.length + ndigits s.acc))
        { s with
          acc := 0, rem := (digitsMin s.acc).headD s.rem, dstk := s.dstk ++ (digitsMin s.acc).reverse,
          phase := .encOut }) := by
  have hlegal : stateful .encf performEncf s = performEncf s :=
    stateful_performed (by simp [legalPhases]) (by simpa [legalPhases] using hp)
  refine congrArg Host.Outcome.next (hlegal.trans ((if_neg (Nat.not_lt.2 hroom)).trans ?_))
  rw [divLoop_eq _ s rfl]
  simp [State.sp, digitsMin_length]

theorem sends_encf {c : Config} {data : List Byte} (hc : c.Legal) (hfit : data.length - lead0 data ≤ c.accBytes) :
    Sends (EncodeInput c data) [.encf] [(true, false, ndigits (val256 data))] (EncodeOutput data) := by
  have hval : val256 data < 256 ^ c.accBytes :=
    (val256_lt_significant data).trans_le (Nat.pow_le_pow_right (by decide) hfit)
  have hdigits := ndigits_le_dstkDepth hval
  have hdepth := dstkDepth_le hc
  refine sends_one (.hostBlind c data) (fun s h => ?_) fun t h => ?_
  · have hready := h.charsReady_ask_encf hfit
    have hroom : s.dstk.length + ndigits s.acc ≤ dstkDepth s.cfg := by simpa [h.dstk, h.acc, h.cfg] using hdigits
    have hask := ask_encode rfl (exec_encf_answer (h.phase.imp_right .inl) hroom)
    refine ⟨_, _, hask, ?_, hask ▸ hready, h.pad, ?_, rfl⟩
    · rw [h.dstk, h.acc, BitVec.toNat_ofNat, List.length_nil, Nat.zero_add, Nat.mod_eq_of_lt (by omega)]
    · simp [h.dstk, h.acc, digitsMin_length]
  · exact iff_of_false nofun fun hf => nomatch h.ready.1.symm.trans hf

/-- Settles O39: the input commands build up what ENCF turns into `enc data`, which the pops deliver. -/
theorem encodeCommandsComputeEnc : Obligations.EncodeCommandsComputeEnc := by
  intro c before data m hc hfit hpad
  have hinput := (sends_encb hfit hpad).append (sends_encf hc hfit)
  have hpops := (sends_popc (enc data) m).of_imp fun _ (h : EncodeOutput data _) => h.ready
  obtain ⟨t, u, hrun, hout, hpop, hend, hviews⟩ := hinput.run_both hpops hc before (encodeInput_freshEngine c _ _)
  rw [List.length_append, List.length_map, List.append_assoc] at hrun
  rw [List.length_replicate] at hpop
  rw [List.append_assoc] at hviews
  refine ⟨t, u, hrun, hout.pad, hout.sp, hout.acc, hout.ready.1, hpop, hviews, fun hm => ?_⟩
  rw [List.drop_eq_nil_of_le hm] at hend
  exact operationDone_of_charsReady hend

/-! ## Input that does not fit (42_encode R111, R172, R174) -/

theorem pow_le_val256 {xs : List Byte} (h : lead0 xs < xs.length) : 256 ^ (xs.length - lead0 xs - 1) ≤ val256 xs := by
  induction xs with
  | nil => exact absurd h (Nat.not_lt_zero _)
  | cons x xs ih =>
    by_cases hx : x = 0
    · simpa [hx, val256, lead0] using ih (by simpa [hx, lead0] using h)
    · have hrun : lead0 (x :: xs) = 0 := congrArg List.length (List.takeWhile_cons_of_neg (by simpa using hx))
      have hpos : 1 ≤ x.toNat := (bitvec_ne_zero_iff x).1 hx
      have hfirst : 256 ^ xs.length ≤ x.toNat * 256 ^ xs.length := Nat.le_mul_of_pos_left _ hpos
      simp only [hrun, List.length_cons, val256, Nat.sub_zero, Nat.add_sub_cancel]
      omega

/-- With A significant bytes the accumulator is full: one more byte faults. -/
theorem EncodeInput.ask_encb_of_full {c : Config} {data : List Byte} {s : State} (h : EncodeInput c data s)
    (hc : c.Legal) (hfull : data.length = lead0 data + c.accBytes) (b : Byte) :
    ask (encode (.encb b)) s = raise .ecap (encode (.encb b)) s := by
  have hA := hc.1
  have hlead : ¬ (s.lead = true ∧ b = 0) := fun hl => by
    have := h.lead.1 hl.1
    omega
  have hcap : s.acc ≥ 256 ^ (s.cfg.accBytes - 1) := by
    have hval := pow_le_val256 (xs := data) (by omega)
    rwa [hfull, Nat.add_sub_cancel_left, ← h.acc, ← h.cfg] at hval
  rw [ask_encode rfl (exec_encb_of_input b h.phase), performEncb, if_neg hlead, if_pos hcap]

/-- With 65535 zero bytes PAD is full: one more faults. -/
theorem EncodeInput.ask_encb_of_full_pad {c : Config} {data : List Byte} {s : State} (h : EncodeInput c data s)
    (hzeros : lead0 data = data.length) (hfull : lead0 data = 65535) :
    ask (encode (.encb 0)) s = raise .epad (encode (.encb 0)) s := by
  have hpad : s.pad = 65535 := BitVec.eq_of_toNat_eq (h.pad.trans hfull)
  rw [ask_encode rfl (exec_encb_of_input 0 h.phase), performEncb, if_pos ⟨h.lead.2 hzeros, rfl⟩, if_pos hpad]

/-- When the byte after some that fit faults, it and all that follows are answered with the fault. -/
theorem encode_faults {c : Config} {before : List RspWord} {data : List Byte} {k m : Nat} {b : Byte} {cause : Cause}
    (hc : c.Legal) (hb : data[k]? = some b) (hfit : (data.take k).length - lead0 (data.take k) ≤ c.accBytes)
    (hpad : lead0 (data.take k) ≤ 65535)
    (hraise : ∀ s, EncodeInput c (data.take k) s → ask (encode (.encb b)) s = raise cause (encode (.encb b)) s) :
    ∃ u,
      runSteps (data.length + 1 + m)
        (freshEngine c (presents (data.map .encb ++ .encf :: List.replicate m .popc)) before) = .next u ∧
      operationFailed u ∧ u.err = some cause ∧ u.errch = b ∧
      (u.rsp.drop before.length).map responseView =
        List.replicate k (true, false, 0) ++
          List.replicate (data.length + 1 + m - k) (false, true, causeNumber cause * 256 + b.toNat) := by
  obtain ⟨hk, hget⟩ := List.getElem?_eq_some_iff.1 hb
  have hsplit : data = data.take k ++ b :: data.drop (k + 1) := by
    rw [← hget, ← List.drop_eq_getElem_cons hk, List.take_append_drop]
  have hcommands : data.map Instr.encb ++ Instr.encf :: List.replicate m .popc =
      (data.take k).map .encb ++ .encb b :: ((data.drop (k + 1)).map .encb ++ .encf :: List.replicate m .popc) := by
    conv_lhs => rw [hsplit]
    simp
  have hsends := (sends_encb hfit hpad).fault (.hostBlind c _) hraise
    (not_performed_in_fault .encb .encf .popc (fun _ => by simp [legalPhases]) (by decide) (by decide)
      (data.drop (k + 1)) m)
  rw [← hcommands] at hsends
  obtain ⟨u, hrun, hfault, hviews⟩ := hsends.run hc before (encodeInput_freshEngine c _ _)
  have hsteps : (data.map Instr.encb ++ Instr.encf :: List.replicate m .popc).length = data.length + 1 + m := by
    simp
    omega
  have hlater : ((data.drop (k + 1)).map Instr.encb ++ Instr.encf :: List.replicate m .popc).length + 1 =
      data.length + 1 + m - k := by
    simp
    omega
  rw [hsteps] at hrun
  rw [hlater, List.length_take_of_le hk.le] at hviews
  exact ⟨u, hrun, hfault.phase, hfault.err, hfault.errch, hviews⟩

/-- Settles O40: the byte that does not fit raises ECAP or EPAD, and the rest is refused. -/
theorem encodeThatDoesNotFitFaults : Obligations.EncodeThatDoesNotFitFaults := by
  refine fun c before data m hc => ⟨fun b hpad hb => ?_, fun hpad => ?_⟩
  · obtain ⟨hk, -⟩ := List.getElem?_eq_some_iff.1 hb
    have hlength : (data.take (lead0 data + c.accBytes)).length = lead0 data + c.accBytes :=
      List.length_take_of_le hk.le
    have hlead : lead0 (data.take (lead0 data + c.accBytes)) = lead0 data := by rw [lead0_take]; omega
    exact encode_faults hc hb (by omega) (by omega) fun s h => h.ask_encb_of_full hc (by omega) b
  · have hk := hpad.trans_le (lead0_le_length data)
    have hlength : (data.take 65535).length = 65535 := List.length_take_of_le hk.le
    have hlead : lead0 (data.take 65535) = 65535 := by rw [lead0_take]; omega
    have hzero : data[65535]? = some 0 := by
      rw [← replicate_lead0_append_bytesMin data, List.getElem?_append_left (by simpa using hpad)]
      exact List.getElem?_replicate_of_lt hpad
    exact encode_faults hc hzero (by omega) hlead.le fun s h => h.ask_encb_of_full_pad (by omega) hlead

end Sys2Proof.Machine
end

section
/-! PROOF. The decode commands compute `dec` (spec/40_reference_codec.md R95, R96). -/

namespace Sys2Proof.Machine

/-! ## The input (43_decode R131) -/

theorem DecodeInput.hostBlind (c : Config) (ds : List Digit) : HostBlind (DecodeInput c ds) :=
  fun _ _ h => { h with }

theorem DecodeInput.phase_ne_fault {c : Config} {ds : List Digit} {s : State} (h : DecodeInput c ds s) :
    s.phase ≠ .fault := fun hf => by simpa [hf] using h.phase

theorem decodeInput_freshEngine (c : Config) (events : List HostEvent) (before : List RspWord) :
    DecodeInput c [] (freshEngine c events before) :=
  ⟨rfl, .inl rfl, rfl, iff_of_true rfl rfl, rfl, fun _ => rfl⟩

/-- A DECC that does not fault answers with its digit. -/
theorem ask_decc_answer {d : Digit} {s : State} (hp : s.phase = .idle ∨ s.phase = .decIn)
    (hok : (ask (encode (.decc (alpha d))) s).phase ≠ .fault) :
    ∃ u, ask (encode (.decc (alpha d))) s = respond true (dataOfDigit d) u := by
  rw [ask_encode rfl (exec_decc_of_input (alpha d) hp)] at hok ⊢
  simp only [performDecc, digitOf_alpha] at hok ⊢
  split_ifs at hok ⊢
  · exact absurd rfl hok
  · exact ⟨_, rfl⟩
  · exact absurd rfl hok
  · exact ⟨_, rfl⟩

/-- A string that fits, fitted before its last character. -/
theorem decodeFits_of_concat {ds : List Digit} {d : Digit} {n : Nat} (hfit : val58 (ds ++ [d]) < n)
    (hpad : lead1 ((ds ++ [d]).map alpha) ≤ 65535) : val58 ds < n ∧ lead1 (ds.map alpha) ≤ 65535 := by
  rw [val58_concat] at hfit
  rw [lead1_map_concat] at hpad
  split at hpad <;> omega

theorem sends_decc {c : Config} {ds : List Digit} (hfit : val58 ds < 256 ^ c.accBytes)
    (hpad : lead1 (ds.map alpha) ≤ 65535) :
    Sends (DecodeInput c []) ((ds.map alpha).map .decc) (ds.map fun d : Digit => (true, false, d.val))
      (DecodeInput c ds) := by
  induction ds using List.reverseRecOn with
  | nil => exact .nil _
  | append_singleton ds d ih =>
    obtain ⟨hfit', hpad'⟩ := decodeFits_of_concat hfit hpad
    rw [List.map_append, List.map_append, List.map_append]
    refine (ih hfit' hpad').append (sends_one (.hostBlind c ds) (fun s h => ?_) fun t h => ?_)
    · obtain ⟨-, hnext⟩ := h.ask_decc hfit hpad
      obtain ⟨u, hu⟩ := ask_decc_answer h.phase hnext.phase_ne_fault
      exact ⟨_, u, hu, dataOfDigit_toNat d, hu ▸ hnext⟩
    · exact iff_of_false nofun h.phase_ne_fault

/-! ## DECF (43_decode R132) -/

/-- After DECF: what the pops have to deliver, and the components that R95 names. -/
structure DecodeOutput (ds : List Digit) (bytes : List Byte) (s : State) : Prop where
  ready : bytesReady s bytes
  pad : s.pad.toNat = lead1 (ds.map alpha).dropLast
  oidx : s.oidx.toNat = bytelen (val58 ds)

theorem sends_decf {c : Config} {ds : List Digit} {bytes : List Byte} (hc : c.Legal)
    (hfit : val58 ds < 256 ^ c.accBytes) (hdec : dec (ds.map alpha) = .ok bytes) :
    Sends (DecodeInput c ds) [.decf] [(true, false, bytelen (val58 ds))] (DecodeOutput ds bytes) := by
  have hlen := bytelen_toNat hc hfit
  refine sends_one (.hostBlind c ds) (fun s h => ?_) fun t h => ?_
  · have hask : ask (encode .decf) s = performDecf s := ask_encode rfl (exec_decf_of_input h.phase)
    have hready : bytesReady (performDecf s) bytes := hask ▸ h.bytesReady_ask_decf hc hfit hdec
    exact ⟨_, _, hask, by rw [h.acc, hlen], hready, h.pad_after_decf, h.acc.symm ▸ hlen⟩
  · exact iff_of_false nofun fun hf => nomatch h.ready.1.symm.trans hf

/-- Settles O41: the input commands build up what DECF turns into `dec chars`, which the pops deliver. -/
theorem decodeCommandsComputeDec : Obligations.DecodeCommandsComputeDec := by
  intro c before chars ds m hc hvalid hfit hpad
  obtain rfl := eq_map_alpha hvalid
  obtain ⟨bytes, hdec⟩ : ∃ bytes, dec (ds.map alpha) = .ok bytes := ⟨_, dec_map_alpha ds⟩
  have hinput := (sends_decc hfit hpad).append (sends_decf hc hfit hdec)
  have hpops := (sends_popb bytes m).of_imp fun _ (h : DecodeOutput ds bytes _) => h.ready
  obtain ⟨t, u, hrun, hout, hpop, hend, hviews⟩ := hinput.run_both hpops hc before (decodeInput_freshEngine c _ _)
  rw [List.length_append, List.length_map, List.append_assoc] at hrun
  rw [List.length_replicate] at hpop
  rw [List.append_assoc] at hviews
  refine ⟨t, u, bytes, hrun, hout.pad.trans (lead1_dropLast _), hout.oidx, hout.ready.1, hdec, hpop, hviews,
    fun hm => ?_⟩
  rw [List.drop_eq_nil_of_le hm] at hend
  exact operationDone_of_bytesReady hend

/-! ## An invalid character (43_decode R131, 60_exceptions R171) -/

theorem decLoop_of_invalid (n : Nat) (ds : List Digit) {ch : Byte} (hch : digitOf ch = none) (later : List Byte) :
    decLoop n (ds.map alpha ++ ch :: later) = .error ch := by
  induction ds generalizing n with
  | nil => simp [decLoop, hch]
  | cons d ds ih => simpa [decLoop, digitOf_alpha] using ih (n * 58 + d.val)

theorem dec_of_decLoop_error {chars : List Byte} {ch : Byte} (h : decLoop 0 chars = .error ch) :
    dec chars = .error ch := by
  cases chars with
  | nil => cases h
  | cons c cs => simp [dec, h]

/-- Settles O42: the characters before it are taken, the invalid one raises EINVCH, and the rest is refused. -/
theorem decodeFailsAtFirstInvalidCharacter : Obligations.DecodeFailsAtFirstInvalidCharacter := by
  intro c before good ds ch later m hc hvalid hch hfit hpad
  obtain rfl := eq_map_alpha hvalid
  refine ⟨dec_of_decLoop_error (decLoop_of_invalid 0 ds hch later), ?_⟩
  have hcommands : (ds.map alpha ++ ch :: later).map Instr.decc ++ Instr.decf :: List.replicate m .popb =
      (ds.map alpha).map .decc ++ .decc ch :: (later.map .decc ++ .decf :: List.replicate m .popb) := by
    simp
  have hsends := (sends_decc hfit hpad).fault (.hostBlind c ds)
    (fun s h => ask_encode rfl (exec_decc_of_invalid h.phase hch))
    (not_performed_in_fault .decc .decf .popb (fun _ => by simp [legalPhases]) (by decide) (by decide) later m)
  rw [← hcommands] at hsends
  obtain ⟨u, hrun, hfault, hviews⟩ := hsends.run hc before (decodeInput_freshEngine c _ _)
  have hsteps : ((ds.map alpha ++ ch :: later).map Instr.decc ++ Instr.decf :: List.replicate m .popb).length =
      (ds.map alpha).length + 1 + later.length + 1 + m := by
    simp
    omega
  have hlater : (later.map Instr.decc ++ Instr.decf :: List.replicate m .popb).length + 1 = later.length + 2 + m := by
    simp
    omega
  rw [hsteps] at hrun
  rw [hlater] at hviews
  exact ⟨u, hrun, hfault.phase, hfault.err, hfault.errch, hviews⟩

end Sys2Proof.Machine
end

section
/-! PROOF. NOP and CLR are performed in every phase (spec/41_control.md R101, R102). -/

namespace Sys2Proof.Machine

/-! ## NOP (R101) -/

/-- Opcode 0 has format Z, so a word 0x0nnn with nnn not zero is illegal (30_encoding R67). -/
theorem illegal_of_opcode_zero {w : CmdWord} (hpos : 0 < w.toNat) (hlt : w.toNat < 4096) :
    ∃ e, decode w = .error e := by
  have hop : w.toNat / 4096 = 0 := Nat.div_eq_of_lt hlt
  have harg : w.toNat % 4096 ≠ 0 := by
    rw [Nat.mod_eq_of_lt hlt]
    exact Nat.ne_of_gt hpos
  exact (illegalWordsAreThoseOfTheRule w).2 (.inr (.inl ⟨by simp [hop], harg⟩))

theorem exec_nop (s : State) : exec .nop s = .next (answerWith true 0 s) :=
  congrArg Host.Outcome.next (respond_eq_answerWith true 0 s)

/-- Settles O10: the word 0x0000 alone of opcode 0 is legal, and NOP only adds its answer. -/
theorem nopAnswersAndChangesNothing : Obligations.NopAnswersAndChangesNothing :=
  ⟨by decide, fun _ => illegal_of_opcode_zero, exec_nop⟩

/-! ## CLR (R102) -/

theorem exec_clr (s : State) : exec .clr s = .next (freshEngine s.cfg s.host (s.rsp ++ [0x01180000])) :=
  congrArg Host.Outcome.next (respond_clearEngine s)

/-- Settles O11: CLR is `respond_clearEngine`. -/
theorem clrGivesTheResetState : Obligations.ClrGivesTheResetState :=
  ⟨by decide, exec_clr⟩

end Sys2Proof.Machine
end

section
/-! PROOF. The encode commands, clause by clause (spec/42_encode.md R111 to R114; spec/60_exceptions.md R172 to R174,
R177, R179). -/

namespace Sys2Proof.Machine

/-! ## Out of phase (R177, R179) -/

/-- Outside its phases and FAULT a stateful command raises EPROTO with the low byte of its word. -/
theorem stateful_out_of_phase {i : Instr} {f : State → State} {s : State} {ps : List Phase}
    (hps : ∀ p ∈ ps, p ≠ .fault ∧ p ∉ legalPhases i) (hp : s.phase ∈ ps) :
    stateful i f s = withFault .eproto (lowByteOf i) s := by
  obtain ⟨hf, hl⟩ := hps _ hp
  rw [stateful_of_not_legal hf hl, fieldLow_encode]

/-- A fault of a command, in the claims' words. -/
theorem raise_encode (c : Cause) (i : Instr) (s : State) : raise c (encode i) s = withFault c (lowByteOf i) s := by
  rw [raise_eq_withFault, fieldLow_encode]

/-! ## DIVS and ENCF in the phases of the division (R112, R113) -/

section

variable {s : State}

theorem exec_divs_of_dividing (hp : s.phase = .idle ∨ s.phase = .encIn ∨ s.phase = .encDiv) :
    exec .divs s = .next (performDivs s) :=
  congrArg Host.Outcome.next (stateful_performed (by simp [legalPhases]) (by simpa [legalPhases] using hp))

theorem exec_encf_of_dividing (hp : s.phase = .idle ∨ s.phase = .encIn ∨ s.phase = .encDiv) :
    exec .encf s = .next (performEncf s) :=
  congrArg Host.Outcome.next (stateful_performed (by simp [legalPhases]) (by simpa [legalPhases] using hp))

theorem performDivs_of_full (hfull : s.dstk.length = dstkDepth s.cfg) : performDivs s = withFault .estk 0 s :=
  (if_pos hfull).trans (raise_encode .estk .divs s)

theorem performEncf_of_full (hfull : dstkDepth s.cfg < s.dstk.length + ndigits s.acc) :
    performEncf s = withFault .estk 0 s :=
  (if_pos hfull).trans (raise_encode .estk .encf s)

end

/-- Settles O14: with room on the stack it is `exec_encf_answer`, whose DATA fits 16 bits since S does. -/
theorem encfRunsTheDivisionLoop : Obligations.EncfRunsTheDivisionLoop := by
  refine ⟨by decide, fun s hc => ⟨fun hp => ⟨fun hroom => ?_, fun hfull => ?_⟩, fun hp => ?_, fun hf => ?_⟩⟩
  · have hdepth := dstkDepth_le hc
    rw [exec_encf_answer hp hroom, respond_eq_answerWith, BitVec.toNat_ofNat, Nat.mod_eq_of_lt (by omega)]
  · rw [exec_encf_of_dividing hp, performEncf_of_full hfull]
  · exact congrArg Host.Outcome.next (stateful_out_of_phase (by decide) hp)
  · exact congrArg Host.Outcome.next (stateful_of_fault hf)

/-- Settles O13: `q` and `r` are the quotient and the remainder that the division step takes. -/
theorem divsDividesOnceBy58 : Obligations.DivsDividesOnceBy58 := by
  refine ⟨encode_divs, fun s => ⟨fun hp => ⟨fun q r hroom hacc => ?_, fun hfull => ?_⟩, fun hp => ?_, fun hf => ?_⟩⟩
  · have hr := r.isLt
    have hquot : s.acc / 58 = q := by omega
    have hrem : remDigit s.acc = r := Fin.ext (by rw [remDigit_val]; omega)
    rw [exec_divs_of_room hp hroom, respond_eq_answerWith, dataOfDigit_toNat, divStep, hquot, hrem]
  · rw [exec_divs_of_dividing hp, performDivs_of_full hfull]
  · exact congrArg Host.Outcome.next (stateful_out_of_phase (by decide) hp)
  · exact congrArg Host.Outcome.next (stateful_of_fault hf)

/-! ## ENCB (R111) -/

/-- The capacity test of R111 is exact. -/
theorem mul256_add_lt_pow_iff {a : Nat} (ha : 1 ≤ a) (n : Nat) (b : Byte) :
    n * 256 + b.toNat < 256 ^ a ↔ n < 256 ^ (a - 1) := by
  obtain ⟨k, rfl⟩ := Nat.exists_eq_add_of_le' ha
  have hb := b.isLt
  rw [Nat.add_sub_cancel, Nat.pow_succ]
  omega

/-- Settles O12: the clauses of `performEncb`, with the capacity test as `mul256_add_lt_pow_iff` has it. -/
theorem encbCountsOrShiftsInAByte : Obligations.EncbCountsOrShiftsInAByte := by
  refine fun b => ⟨BitVec.eq_of_toNat_eq ?_, fun s hc => ⟨fun hp => ⟨?_, ?_, ?_, ?_⟩, fun hp => ?_, fun hf => ?_⟩⟩
  · have hb := b.isLt
    rw [encode, encodeB_toNat, BitVec.toNat_ofNat, Nat.mod_eq_of_lt (by omega)]
    rfl
  · rintro hl rfl hpad
    rw [exec_encb_of_zero hp hl (ne_of_toNat_lt hpad), respond_eq_answerWith]
    rfl
  · rintro hl rfl hpad
    have hfull : s.pad = 65535 := BitVec.eq_of_toNat_eq hpad
    rw [exec_encb_of_input 0 hp, performEncb, if_pos ⟨hl, rfl⟩, if_pos hfull, raise_encode, lowByteOf]
  · intro hl hfit
    rw [exec_encb_of_fits hp hl ((mul256_add_lt_pow_iff hc.1 s.acc b).1 hfit), respond_eq_answerWith]
    rfl
  · intro hl hcap
    rw [← not_lt, mul256_add_lt_pow_iff hc.1, not_lt] at hcap
    rw [exec_encb_of_input b hp, performEncb, if_neg hl, if_pos hcap, raise_encode, lowByteOf]
  · exact congrArg Host.Outcome.next (stateful_out_of_phase (i := .encb b) (by simp [legalPhases]) hp)
  · exact congrArg Host.Outcome.next (stateful_of_fault hf)

/-! ## POPC (R114) -/

theorem dataOfByte_alpha_toNat (d : Digit) : (dataOfByte (alpha d)).toNat = alphaCode d.val := by
  rw [dataOfByte_toNat, alpha_toNat]

/-- Settles O15: the three clauses of `performPopc`, each with the code of its character. -/
theorem popcDeliversPadThenStack : Obligations.PopcDeliversPadThenStack := by
  refine ⟨encode_popc, fun s => ⟨fun hp => ⟨fun hpad => ?_, fun below top hpad hd => ?_, fun hpad hd => ?_⟩,
    fun hp => ?_, fun hf => ?_⟩⟩
  · rw [exec_popc_of_encOut hp, performPopc_of_pad ((bitvec_ne_zero_iff _).2 hpad), respond_eq_answerWith,
      dataOfByte_alpha_toNat]
    rfl
  · rw [exec_popc_of_encOut hp, performPopc_of_top (BitVec.eq_of_toNat_eq hpad) hd, respond_eq_answerWith,
      dataOfByte_alpha_toNat]
  · rw [exec_popc_of_encOut hp, performPopc_of_empty (BitVec.eq_of_toNat_eq hpad) hd, respond_refusal_eq]
  · exact congrArg Host.Outcome.next (stateful_out_of_phase (by decide) hp)
  · exact congrArg Host.Outcome.next (stateful_of_fault hf)

end Sys2Proof.Machine
end

section
/-! PROOF. What the division keeps: the stack's bound, the number, and the engine that ENCF leaves (spec/42_encode.md
R117, R118; spec/10_state.md R33 item 6; log 19). -/

namespace Sys2Proof.Machine

/-! ## Room on the stack (R117) -/

/-- ENCF always finds room for what is left of ACC, also when nothing is. -/
theorem State.Inv.room_for_encf {s : State} (h : s.Inv)
    (hp : s.phase = .idle ∨ s.phase = .encIn ∨ s.phase = .encDiv) :
    s.dstk.length + ndigits s.acc ≤ dstkDepth s.cfg := by
  by_cases ha : s.acc = 0
  · simpa [ha] using h.sp_le
  · exact h.room hp ha

/-- DIVS finds room while Z is 0. -/
theorem State.Inv.room_for_divs {s : State} (h : s.Inv)
    (hp : s.phase = .idle ∨ s.phase = .encIn ∨ s.phase = .encDiv) (ha : s.acc ≠ 0) :
    s.dstk.length ≠ dstkDepth s.cfg := by
  have hroom := h.room hp ha
  have hdigits := ndigits_ne_zero ha
  omega

/-- In the phases of the division no fault is recorded. -/
theorem State.Inv.err_none_of_dividing {s : State} (h : s.Inv)
    (hp : s.phase = .idle ∨ s.phase = .encIn ∨ s.phase = .encDiv) : s.err = none :=
  h.err_none fun hf => by simp [hf] at hp

/-- Settles O34: the stack has room, so both commands are performed and record no fault. -/
theorem stackNeverOverflowsWhileZIsZero : Obligations.StackNeverOverflowsWhileZIsZero := by
  refine fun s t hs hp => ⟨fun hexec => ?_, fun ha hexec => ?_⟩
  · cases (exec_encf_answer hp (hs.room_for_encf hp)).symm.trans hexec
    exact ⟨rfl, hs.err_none_of_dividing hp⟩
  · cases (exec_divs_of_room hp (hs.room_for_divs hp ha)).symm.trans hexec
    exact ⟨rfl, hs.err_none_of_dividing hp⟩

/-! ## The number that is being encoded (R112, R113) -/

theorem numberInDivision_divStep (s : State) : numberInDivision (divStep s) = numberInDivision s := by
  have hsplit : s.acc / 58 * 58 + s.acc % 58 = s.acc := Nat.div_add_mod' s.acc 58
  calc numberInDivision (divStep s)
      = (s.acc / 58 * 58 + s.acc % 58) * 58 ^ s.dstk.length + val58 s.dstk.reverse := by
        simp [numberInDivision, val58, Nat.pow_succ]
        ring
    _ = numberInDivision s := by rw [hsplit, numberInDivision]

/-- The stack from the top, once the digits of ACC are on it. -/
theorem val58_reverse_append_digitsMin (s : State) :
    val58 (s.dstk ++ (digitsMin s.acc).reverse).reverse = numberInDivision s := by
  rw [List.reverse_append, List.reverse_reverse, val58_append, val58_digitsMin, List.length_reverse, numberInDivision]

/-- A DIVS that is performed is a division step. -/
theorem numberInDivision_of_divs {s t : State} (hexec : exec .divs s = .next t) (ht : t.phase = .encDiv) :
    numberInDivision t = numberInDivision s := by
  cases exec_cases hexec with
  | refused hf => cases hf.symm.trans ht
  | faulted => cases ht
  | performed _ _ hu =>
    cases hu with
    | read hi => cases hi
    | divideOnce => exact numberInDivision_divStep s

theorem exists_append_zero_iff (below : List Digit) (d : Digit) :
    (∃ below', below ++ [d] = below' ++ [0]) ↔ d = 0 := by
  refine ⟨fun ⟨_, h⟩ => ?_, fun h => ⟨below, h ▸ rfl⟩⟩
  obtain ⟨-, hlast⟩ := List.append_inj' h rfl
  exact List.singleton_inj.1 hlast

/-- Settles O59: DIVS is one division step, ENCF pushes the digits of what is left, and the digit that DIVS pushes is
ACC mod 58. -/
theorem divisionStepsKeepTheNumber : Obligations.DivisionStepsKeepTheNumber := by
  refine fun s t hs hp => ⟨numberInDivision_of_divs, fun hexec => ?_, fun ha hexec => ?_⟩
  · cases (exec_encf_answer hp (hs.room_for_encf hp)).symm.trans hexec
    exact ⟨rfl, val58_reverse_append_digitsMin s⟩
  · cases (exec_divs_of_room hp (hs.room_for_divs hp ha)).symm.trans hexec
    exact ⟨rfl, (exists_append_zero_iff s.dstk (remDigit s.acc)).trans Fin.ext_iff⟩

/-! ## ENCF is the host's loop (R118) -/

/-- The engine that ENCF leaves, with nothing more to come from the host and the responses `rsp`. -/
def State.encoded (s : State) (rsp : List RspWord) : State :=
  { s with
    acc := 0, rem := (digitsMin s.acc).headD s.rem, dstk := s.dstk ++ (digitsMin s.acc).reverse,
    phase := .encOut, host := [], rsp := rsp }

/-- One division step less for ENCF to do. -/
theorem encoded_divStep {s : State} (ha : s.acc ≠ 0) (rsp : List RspWord) :
    (divStep s).encoded rsp = s.encoded rsp := by
  simp [State.encoded, divStep, digitsMin_step ha]

theorem exec_encf_encoded {s : State} (hs : s.Inv) (hp : s.phase = .idle ∨ s.phase = .encIn ∨ s.phase = .encDiv) :
    ∃ rsp, exec .encf { s with host := [] } = .next (s.encoded rsp) :=
  ⟨_, exec_encf_answer (s := { s with host := [] }) hp (hs.room_for_encf hp)⟩

/-- DIVS `k` times while Z is 0 and then ENCF. -/
theorem runSteps_divs_encf {k : Nat} {s : State} (hs : s.Inv)
    (hp : s.phase = .idle ∨ s.phase = .encIn ∨ s.phase = .encDiv) (hk : k ≤ ndigits s.acc)
    (hh : s.host = presents (List.replicate k .divs ++ [.encf])) :
    ∃ rsp, runSteps (k + 1) s = .next (s.encoded rsp) := by
  induction k generalizing s with
  | zero =>
    have hstep := step_of_decode_ok (rest := []) hh (decode_encode (i := .encf) rfl)
    obtain ⟨rsp, hexec⟩ := exec_encf_encoded hs hp
    exact ⟨rsp, runSteps_succ (hstep.trans hexec)⟩
  | succ k ih =>
    have ha : s.acc ≠ 0 := fun h0 => by simp [h0] at hk
    have hstep := (step_of_decode_ok (rest := presents (List.replicate k .divs ++ [.encf])) hh
      (decode_encode (i := .divs) rfl)).trans (exec_divs_of_room hp (hs.room_for_divs hp ha))
    rw [ndigits_step ha] at hk
    obtain ⟨rsp, hrun⟩ := ih ((step_cases hstep).inv hs) (.inr (.inr rfl)) (Nat.succ_le_succ_iff.1 hk) rfl
    refine ⟨rsp, (runSteps_succ hstep).trans (hrun.trans (congrArg Host.Outcome.next ?_))⟩
    exact encoded_divStep ha rsp

/-- Settles O38: both ways leave `State.encoded`, by induction on the number of DIVS. -/
theorem divsThenEncfIsEncf : Obligations.DivsThenEncfIsEncf := by
  intro s k hs hp hk
  obtain ⟨rsp, hrun⟩ := runSteps_divs_encf (hs.channels (presents (List.replicate k .divs ++ [.encf])) s.rsp) hp hk rfl
  obtain ⟨rsp', hexec⟩ := exec_encf_encoded hs hp
  exact ⟨_, _, hrun, hexec, rfl⟩

end Sys2Proof.Machine
end

section
/-! PROOF. The byte-serial shift and division of the accumulator (spec/42_encode.md R115, R116). -/

namespace Sys2Proof.Machine

/-! ## The bytes of the accumulator from either end -/

/-- Byte 0, then the bytes of the quotient by 256. -/
theorem accBytesOf_succ (a n : Nat) : accBytesOf (a + 1) n = BitVec.ofNat 8 (n % 256) :: accBytesOf a (n / 256) :=
  List.reverse_injective ((lowBytes_succ' n a).trans List.reverse_cons.symm)

/-- One byte more at the top. -/
theorem accBytesOf_succ_top (a n : Nat) : accBytesOf (a + 1) n = accBytesOf a n ++ [accByte n a] := by
  simp [accBytesOf, List.range_succ]

/-! ## The shift by one byte (R115) -/

/-- The byte at the bottom and the bytes above it are those of `n * 256 + b`. -/
theorem cons_accBytesOf (a n : Nat) (b : Byte) : b :: accBytesOf a n = accBytesOf (a + 1) (n * 256 + b.toNat) := by
  have hb := b.isLt
  have hquot : (n * 256 + b.toNat) / 256 = n := by omega
  have hrem : (n * 256 + b.toNat) % 256 = b.toNat := by omega
  rw [accBytesOf_succ, hquot, hrem, BitVec.ofNat_toNat, BitVec.setWidth_eq]

theorem shiftInByte_accBytesOf (a n : Nat) (b : Byte) :
    shiftInByte (accBytesOf a n) b = (accBytesOf a (n * 256 + b.toNat), accByte (n * 256 + b.toNat) a) := by
  simp only [shiftInByte, cons_accBytesOf, accBytesOf_succ_top, List.dropLast_concat, List.getLast_concat]

/-- The top byte of a number of `a + 1` bytes is 0 exactly when it fits in `a`. -/
theorem accByte_eq_zero_iff {a n : Nat} (hn : n < 256 ^ (a + 1)) : accByte n a = 0 ↔ n < 256 ^ a := by
  have htop : n / 256 ^ a < 256 := Nat.div_lt_of_lt_mul hn
  rw [← BitVec.toNat_inj, accByte_toNat, Nat.mod_eq_of_lt htop]
  exact Nat.div_eq_zero_iff_lt (Nat.pow_pos (by decide))

/-- Settles O54: the shifted bytes are those of `n * 256 + b`, and the byte shifted out is its byte `a`. -/
theorem byteShiftIsTimes256PlusByte : Obligations.ByteShiftIsTimes256PlusByte := by
  intro a n b _ hn
  have hlt : n * 256 + b.toNat < 256 ^ (a + 1) := (mul256_add_lt_pow_iff a.succ_pos n b).2 hn
  rw [shiftInByte_accBytesOf]
  exact ⟨accByte_eq_zero_iff hlt, rfl⟩

/-! ## Long division (R116) -/

/-- Settles O55, by induction on the number of bytes: the remainder of the higher bytes and the next byte divide as one
number below 58 * 256. -/
theorem byteSerialDivisionIsDivisionBy58 : Obligations.ByteSerialDivisionIsDivisionBy58 := by
  intro a
  induction a with
  | zero =>
    intro n hn
    obtain rfl : n = 0 := by simpa using hn
    rfl
  | succ a ih =>
    intro n hn
    have hhigher := ih (n / 256) (Nat.div_lt_of_lt_mul (by rwa [Nat.pow_succ'] at hn))
    have hdigit : (n / 256 % 58 * 256 + n % 256) / 58 = n / 58 % 256 := by omega
    have hrem : (n / 256 % 58 * 256 + n % 256) % 58 = n % 58 := by omega
    have hquot : n / 256 / 58 = n / 58 / 256 := by omega
    rw [accBytesOf_succ, accBytesOf_succ, divideBy58, hhigher]
    simp [hdigit, hrem, hquot]

end Sys2Proof.Machine
end

section
/-! PROOF. The decode commands, clause by clause (spec/43_decode.md R131 to R133; spec/60_exceptions.md R171, R172,
R174, R177, R179). -/

namespace Sys2Proof.Machine

/-! ## DECC (R131) -/

/-- A word of format B is its opcode and its symbol side by side. -/
theorem encodeB_eq_ofNat (op : BitVec 4) (b : Byte) : encodeB op b = BitVec.ofNat 16 (op.toNat * 4096 + b.toNat) := by
  rw [← encodeB_toNat, BitVec.ofNat_toNat, BitVec.setWidth_eq]

/-- A code that the closed form of R31 does not reach is no character. -/
theorem digitOf_eq_none_of_alphaCode {c : Byte} (h : ∀ i < 58, alphaCode i ≠ c.toNat) : digitOf c = none := by
  refine (digitOf_eq_none_iff c).2 fun d hd => h d.val d.isLt ?_
  rw [← alpha_toNat, hd]

/-- The code of digit `d` in the closed form of R31 is the character of `d`. -/
theorem digitOf_eq_some_of_alphaCode {c : Byte} {d : Nat} (hd : d < 58) (h : alphaCode d = c.toNat) :
    digitOf c = some ⟨d, hd⟩ := by
  have hc : alpha ⟨d, hd⟩ = c := BitVec.eq_of_toNat_eq ((alpha_toNat ⟨d, hd⟩).trans h)
  rw [← hc, digitOf_alpha]

section

variable {s : State} {c : Byte} {d : Digit}

theorem exec_decc_of_one_full_pad (hp : s.phase = .idle ∨ s.phase = .decIn) (hc : digitOf c = some 0)
    (hl : s.lead = true) (hpad : s.pad = 65535) : exec (.decc c) s = .next (withFault .epad c s) := by
  simp only [exec_decc_of_input c hp, performDecc, hc, hl, and_self, if_true, if_pos hpad, raise_encode, lowByteOf]

theorem exec_decc_of_overflow (hp : s.phase = .idle ∨ s.phase = .decIn) (hc : digitOf c = some d)
    (hl : ¬ (s.lead = true ∧ d = 0)) (hcap : 256 ^ s.cfg.accBytes ≤ s.acc * 58 + d.val) :
    exec (.decc c) s = .next (withFault .ecap c s) := by
  have hlimit : s.acc * 58 + d.val ≥ accLimit s.cfg := hcap
  simp only [exec_decc_of_input c hp, performDecc, hc, if_neg hl, if_pos hlimit, raise_encode, lowByteOf]

end

/-- Settles O16: the digit of the character decides the clause of `performDecc`. -/
theorem deccValidatesThenCountsOrAdds : Obligations.DeccValidatesThenCountsOrAdds := by
  refine fun c => ⟨encodeB_eq_ofNat 6 c, fun s => ⟨fun hp => ⟨?_, ?_, ?_, ?_, ?_⟩, fun hp => ?_, fun hf => ?_⟩⟩
  · intro hinvalid
    rw [exec_decc_of_invalid hp (digitOf_eq_none_of_alphaCode hinvalid), raise_encode, lowByteOf]
  · intro hone hl hpad
    rw [exec_decc_of_one hp (digitOf_eq_some_of_alphaCode (by decide) hone) hl (ne_of_toNat_lt hpad),
      respond_eq_answerWith]
    rfl
  · intro hone hl hpad
    exact exec_decc_of_one_full_pad hp (digitOf_eq_some_of_alphaCode (by decide) hone) hl (BitVec.eq_of_toNat_eq hpad)
  · intro d hd hchar hl hfit
    rw [exec_decc_of_fits hp (digitOf_eq_some_of_alphaCode hd hchar) (fun h => hl (h.imp_right (congrArg Fin.val))) hfit,
      respond_eq_answerWith, dataOfDigit_toNat]
  · intro d hd hchar hl hcap
    exact exec_decc_of_overflow hp (digitOf_eq_some_of_alphaCode hd hchar)
      (fun h => hl (h.imp_right (congrArg Fin.val))) hcap
  · exact congrArg Host.Outcome.next (stateful_out_of_phase (i := .decc c) (by simp [legalPhases]) hp)
  · exact congrArg Host.Outcome.next (stateful_of_fault hf)

/-! ## DECF (R132) -/

/-- DECF in its phases, with the pad rule as `performDecf` has it. -/
theorem exec_decf_answer {s : State} (hc : s.cfg.Legal) (hacc : s.acc < 256 ^ s.cfg.accBytes)
    (hp : s.phase = .idle ∨ s.phase = .decIn) :
    exec .decf s =
      .next (answerWith true (bytelen s.acc)
        { s with
          pad := if s.lead ∧ s.pad ≠ 0 then s.pad - 1 else s.pad
          oidx := BitVec.ofNat 16 (bytelen s.acc)
          phase := .decOut }) := by
  rw [exec_decf_of_input hp, performDecf, respond_eq_answerWith, bytelen_toNat hc hacc]

/-- Settles O17: the two clauses are the two branches of the pad rule. -/
theorem decfAppliesThePadRule : Obligations.DecfAppliesThePadRule := by
  refine ⟨by decide, fun s hc hacc => ⟨fun hp => ?_, fun hp => ?_, fun hf => ?_⟩⟩
  · rw [exec_decf_answer hc hacc hp, ← bitvec_ne_zero_iff]
    exact ⟨fun htake => by rw [if_pos htake], fun hkeep => by rw [if_neg hkeep]⟩
  · exact congrArg Host.Outcome.next (stateful_out_of_phase (by decide) hp)
  · exact congrArg Host.Outcome.next (stateful_of_fault hf)

/-! ## POPB (R133) -/

/-- Settles O18: the three clauses of `performPopb`, the byte written as arithmetic. -/
theorem popbDeliversPadThenBytes : Obligations.PopbDeliversPadThenBytes := by
  refine ⟨by decide, fun s => ⟨fun hp => ⟨fun hpad => ?_, fun hpad ho => ?_, fun hpad ho => ?_⟩, fun hp => ?_,
    fun hf => ?_⟩⟩
  · rw [exec_popb_of_decOut hp, performPopb_of_pad ((bitvec_ne_zero_iff _).2 hpad), respond_eq_answerWith]
    rfl
  · have hne := (bitvec_ne_zero_iff _).2 ho
    have hidx : (s.oidx - 1).toNat = s.oidx.toNat - 1 := by rw [toNat_eq_succ_of_ne_zero hne, Nat.add_sub_cancel]
    rw [exec_popb_of_decOut hp, performPopb_of_byte (BitVec.eq_of_toNat_eq hpad) hne, respond_eq_answerWith,
      dataOfByte_toNat, accByte_toNat, hidx]
  · rw [exec_popb_of_decOut hp, performPopb_of_empty (BitVec.eq_of_toNat_eq hpad) (BitVec.eq_of_toNat_eq ho),
      respond_refusal_eq]
  · exact congrArg Host.Outcome.next (stateful_out_of_phase (by decide) hp)
  · exact congrArg Host.Outcome.next (stateful_of_fault hf)

end Sys2Proof.Machine
end

section
/-! PROOF. The running pad count of the decode commands is the scan of the string (spec/43_decode.md R135). -/

namespace Sys2Proof.Machine

theorem runSteps_one (s : State) : runSteps 1 s = step s := by
  obtain ⟨t, ht⟩ := step_total s
  rw [runSteps_succ ht, runSteps_zero, ht]

/-- Settles O43: `DecodeInput` holds the count after the DECC commands, and `DecodeOutput` the one after DECF. -/
theorem decodePadCountIsTheScan : Obligations.DecodePadCountIsTheScan := by
  intro c before chars ds hc hvalid hfit hpad
  obtain rfl := eq_map_alpha hvalid
  obtain ⟨t, u, hrun, hinput, hdecf, houtput, -⟩ := (sends_decc hfit hpad).run_both
    (sends_decf hc hfit (dec_map_alpha ds)) hc before (decodeInput_freshEngine c _ _)
  rw [List.length_map] at hrun
  refine ⟨t, u, hrun, hinput.pad, ?_, (runSteps_one t).symm.trans hdecf, houtput.pad⟩
  rw [hinput.lead, List.length_map]

end Sys2Proof.Machine
end

section
/-! PROOF. The byte-serial multiply-add of the accumulator (spec/43_decode.md R134). -/

namespace Sys2Proof.Machine

/-- The bytes and the carry out are those of `n * 58 + carry`, by induction on the number of bytes: what leaves byte 0
is the carry into the bytes of `n / 256`. -/
theorem mul58Add_accBytesOf {a n : Nat} (carry : Nat) (hn : n < 256 ^ a) :
    mul58Add carry (accBytesOf a n) = (accBytesOf a (n * 58 + carry), (n * 58 + carry) / 256 ^ a) := by
  induction a generalizing n carry with
  | zero =>
    obtain rfl : n = 0 := by simpa using hn
    simp [accBytesOf, mul58Add]
  | succ a ih =>
    rw [Nat.pow_succ'] at hn ⊢
    have hhigher := ih ((n % 256 * 58 + carry) / 256) (Nat.div_lt_of_lt_mul hn)
    have hcarry : n / 256 * 58 + (n % 256 * 58 + carry) / 256 = (n * 58 + carry) / 256 := by omega
    have hbyte : (n % 256 * 58 + carry) % 256 = (n * 58 + carry) % 256 := by omega
    rw [hcarry, Nat.div_div_eq_div_mul] at hhigher
    rw [accBytesOf_succ, accBytesOf_succ, mul58Add]
    simp [hhigher, hbyte]

/-- Settles O56: the carry out is the quotient of ACC*58 + d by 256^A. -/
theorem byteSerialMultiplyAddIsTimes58PlusDigit : Obligations.ByteSerialMultiplyAddIsTimes58PlusDigit := by
  intro a n d hn
  have hpos : 256 ^ a ≠ 0 := pow_ne_zero a (by decide)
  rw [mul58Add_accBytesOf d.val hn]
  exact ⟨rfl, Nat.div_ne_zero_iff.trans (and_iff_right hpos)⟩

end Sys2Proof.Machine
end

section
/-! PROOF. The lookup and read commands, entry by entry (spec/44_lookup_and_read.md R150 to R155). -/

namespace Sys2Proof.Machine

/-! ## Words of format X and answers of a read (R61, R150) -/

/-- A word of format X is its opcode and its index side by side. -/
theorem encodeX_eq_ofNat (op : BitVec 4) {idx : Nat} (h : idx < 4096) :
    encodeX op idx = BitVec.ofNat 16 (op.toNat * 4096 + idx) := by
  have hword : (encodeX op idx).toNat = op.toNat * 4096 + idx := by rw [encodeX_toNat, Nat.mod_eq_of_lt h]
  rw [← hword, BitVec.ofNat_toNat, BitVec.setWidth_eq]

section

variable {i : Instr} {s : State} {entry : Option Data}

/-- A read of an entry is performed with the entry's number in DATA. -/
theorem exec_of_entry {d : Data} {n : Nat} (hexec : exec i s = .next (answerRead entry s)) (hentry : entry = some d)
    (hdata : d.toNat = n) : exec i s = .next (answerWith true n s) := by
  rw [hexec, hentry, answerRead, respond_eq_answerWith, hdata]

/-- A read of an index that selects nothing is a benign refusal. -/
theorem exec_of_no_entry (hexec : exec i s = .next (answerRead entry s)) (hentry : entry = none) :
    exec i s = .next (withBenignRefusal s) := by
  rw [hexec, hentry, answerRead, respond_refusal_eq]

end

/-! ## LUTA and LUTV (R151, R152) -/

/-- Settles O19: ALPHA has the entries 0 to 57. -/
theorem lutaReadsTheAlphabet : Obligations.LutaReadsTheAlphabet := by
  refine fun i => ⟨encodeX_eq_ofNat 9, fun s => ⟨fun hi => ?_, fun hi => exec_of_no_entry rfl (readAlpha_of_ge hi)⟩⟩
  have hlt : i < 58 := Nat.lt_succ_of_le hi
  exact exec_of_entry rfl (readAlpha_of_lt hlt) (dataOfByte_alpha_toNat ⟨i, hlt⟩)

/-- LUTV answers with the digit of the character, and with 64 where there is none. -/
theorem exec_lutv (c : Byte) (s : State) :
    exec (.lutv c) s = .next (answerWith true (((digitOf c).map Fin.val).getD 64) s) := by
  have hdata : ((invEntry c).zeroExtend 16).toNat = (invEntry c).toNat := BitVec.toNat_setWidth_of_le (by decide)
  exact exec_of_entry rfl rfl (hdata.trans (invEntry_toNat c))

/-- Settles O20: a code either is the character of a digit, or INV has 64 there. -/
theorem lutvReadsTheValidationTable : Obligations.LutvReadsTheValidationTable := by
  refine fun c => ⟨encodeB_eq_ofNat 10 c, fun s => ⟨fun d hd hchar => ?_, fun hinvalid => ?_⟩⟩
  · rw [exec_lutv, digitOf_eq_some_of_alphaCode hd hchar]
    rfl
  · rw [exec_lutv, digitOf_eq_none_of_alphaCode hinvalid]
    rfl

/-! ## RDSR (R153) -/

/-- SR0 is the STATUS byte (R24). -/
theorem statusRegister_toNat (s : State) : ((statusByte s).zeroExtend 16).toNat = statusNumber s :=
  (BitVec.toNat_setWidth_of_le (by decide)).trans (statusByte_toNat s)

/-- A count below 2^16 is delivered whole (R25, R28, R29). -/
theorem count_toNat {n : Nat} (h : n < 65536) : (BitVec.ofNat 16 n).toNat = n := by
  rw [BitVec.toNat_ofNat, Nat.mod_eq_of_lt h]

/-- Settles O21: each register holds its number, SP, A and S being below 2^16 by the invariant. -/
theorem rdsrReadsTheStatusRegisters : Obligations.RdsrReadsTheStatusRegisters := by
  refine fun n => ⟨encodeX_eq_ofNat 11, fun s hs => ?_⟩
  have hA : s.cfg.accBytes < 65536 := Nat.lt_of_le_of_lt hs.legal.2 (by decide)
  have hS : dstkDepth s.cfg < 65536 := Nat.lt_of_le_of_lt (dstkDepth_le hs.legal) (by decide)
  have hSP : s.dstk.length < 65536 := Nat.lt_of_le_of_lt hs.sp_le hS
  refine ⟨?sr0, ?sr1, ?sr2, ?sr3, ?sr4, ?sr5, ?sr6, ?sr7, ?sr8, ?sr9, ?noRegister⟩
  case sr0 => exact exec_of_entry rfl rfl (statusRegister_toNat s)
  case sr1 | sr5 | sr9 => exact exec_of_entry rfl rfl rfl
  case sr2 => exact exec_of_entry rfl rfl (count_toNat hSP)
  case sr3 => exact exec_of_entry rfl rfl (dataOfDigit_toNat s.rem)
  case sr4 => exact exec_of_entry rfl rfl (errInfo_toNat s)
  case sr6 => exact exec_of_entry rfl rfl (bytelen_toNat hs.legal hs.acc_lt)
  case sr7 => exact exec_of_entry rfl rfl (count_toNat hA)
  case sr8 => exact exec_of_entry rfl rfl (count_toNat hS)
  case noRegister => exact fun hn => exec_of_no_entry rfl (readSR_of_ge hn)

/-! ## RDAB and RDDS (R154, R155) -/

/-- Settles O22: the ACC byte space has the entries 0 to A-1. -/
theorem rdabReadsAnAccumulatorByte : Obligations.RdabReadsAnAccumulatorByte := by
  refine fun i => ⟨encodeX_eq_ofNat 12, fun s => ⟨fun hi => ?_, fun hi => exec_of_no_entry rfl (readAccByte_of_ge hi)⟩⟩
  exact exec_of_entry rfl (readAccByte_of_lt hi) ((dataOfByte_toNat _).trans (accByte_toNat s.acc i))

/-- The stack is read from the first digit pushed (20_memory R44, R57). -/
theorem readDigit_of_split {s : State} {below above : List Digit} {d : Digit} (h : s.dstk = below ++ d :: above) :
    readDigit s below.length = some (dataOfDigit d) := by
  simp [readDigit, h]

theorem readDigit_of_ge {s : State} {i : Nat} (h : s.dstk.length ≤ i) : readDigit s i = none := by
  simp [readDigit, h]

/-- Settles O23: the DSTK space has the entries 0 to SP-1. -/
theorem rddsReadsAStackEntry : Obligations.RddsReadsAStackEntry := by
  refine fun i hidx => ⟨encodeX_eq_ofNat 13 hidx, fun s =>
    ⟨fun below d above hd hlen => ?_, fun hi => exec_of_no_entry rfl (readDigit_of_ge hi)⟩⟩
  rw [← hlen]
  exact exec_of_entry rfl (readDigit_of_split hd) (dataOfDigit_toNat d)

end Sys2Proof.Machine
end

section
/-! PROOF. Faults: which command raises which, what the entry writes, and what leaves FAULT (spec/60_exceptions.md R176
to R183, R195). -/

namespace Sys2Proof.Machine

/-! ## Illegal words (R67, R176) -/

theorem step_of_illegal {s : State} {w : CmdWord} {rest : List HostEvent} {e : IllegalWord}
    (hhost : s.host = .command w :: rest) (hw : decode w = .error e) :
    step s = .next
      (if s.phase = .fault then withRefusal { s with host := rest }
        else withFault .eill (BitVec.ofNat 8 w.toNat) { s with host := rest }) := by
  rw [step_of_decode_error hhost hw, ← fieldLow_eq_ofNat]
  obtain ⟨hf, heq⟩ | ⟨hf, heq⟩ := takeIllegal_cases w { s with host := rest }
  · rw [heq, if_pos hf]
  · rw [heq, if_neg hf]

/-- Settles O7: the two cases of `step_of_illegal`. -/
theorem illegalWordRaisesEill : Obligations.IllegalWordRaisesEill := by
  refine fun s w rest e hhost hw => ⟨fun hf => ?_, fun hf => ?_⟩
  · rw [step_of_illegal hhost hw, if_neg hf]
  · rw [step_of_illegal hhost hw, if_pos hf]

/-- Settles O9: `step_of_idleHost` and `step_total`. -/
theorem everyStepHasANextState : Obligations.EveryStepHasANextState :=
  ⟨fun _ hhost => step_of_idleHost hhost, step_total⟩

/-! ## The table, from the phases of each command (R177) -/

/-- The spec's table and the model's lists of phases agree: outside its phases a command is refused in FAULT and raises
EPROTO elsewhere. -/
theorem phaseTable_eq (i : Instr) (p : Phase) :
    phaseTable i p = if p ∈ legalPhases i then .ok else if p = .fault then .refused else .proto := by
  cases i <;> cases p <;> rfl

theorem phaseTable_eq_ok_iff {i : Instr} {p : Phase} : phaseTable i p = .ok ↔ p ∈ legalPhases i := by
  rw [phaseTable_eq]
  split_ifs <;> simp_all

theorem phaseTable_eq_proto_iff {i : Instr} {p : Phase} :
    phaseTable i p = .proto ↔ p ≠ .fault ∧ p ∉ legalPhases i := by
  rw [phaseTable_eq]
  split_ifs <;> simp_all

theorem phaseTable_eq_refused_iff {i : Instr} {p : Phase} :
    phaseTable i p = .refused ↔ p = .fault ∧ p ∉ legalPhases i := by
  rw [phaseTable_eq]
  split_ifs <;> simp_all

/-- A command that is not performed in every phase has the front of a stateful command. -/
theorem exec_eq_stateful {i : Instr} {p : Phase} (hp : p ∉ legalPhases i) :
    ∃ f, ∀ s, exec i s = .next (stateful i f s) := by
  cases i with
  | encb b => exact ⟨performEncb b, fun _ => rfl⟩
  | divs => exact ⟨performDivs, fun _ => rfl⟩
  | encf => exact ⟨performEncf, fun _ => rfl⟩
  | popc => exact ⟨performPopc, fun _ => rfl⟩
  | decc c => exact ⟨performDecc c, fun _ => rfl⟩
  | decf => exact ⟨performDecf, fun _ => rfl⟩
  | popb => exact ⟨performPopb, fun _ => rfl⟩
  | nop | clr | luta | lutv | rdsr | rdab | rdds => exact absurd (by cases p <;> simp [legalPhases]) hp

theorem exec_of_proto {i : Instr} {s : State} (h : phaseTable i s.phase = .proto) :
    exec i s = .next (withFault .eproto (lowByteOf i) s) := by
  obtain ⟨hf, hl⟩ := phaseTable_eq_proto_iff.1 h
  obtain ⟨f, hexec⟩ := exec_eq_stateful hl
  rw [hexec, stateful_of_not_legal hf hl, fieldLow_encode]

theorem exec_of_refused {i : Instr} {s : State} (h : phaseTable i s.phase = .refused) :
    exec i s = .next (withRefusal s) := by
  obtain ⟨hf, hl⟩ := phaseTable_eq_refused_iff.1 h
  obtain ⟨f, hexec⟩ := exec_eq_stateful hl
  rw [hexec, stateful_of_fault hf]

/-! ## The `ok` entries, command by command (R171 to R174) -/

/-- What an `ok` entry promises of the state `t` after the command: the table's phase, or a data fault. -/
def OkOutcome (i : Instr) (s t : State) : Prop :=
  t.phase = phaseAfter i s.phase ∨
    (s.phase ≠ .fault ∧ ∃ c ∈ [Cause.einvch, .ecap, .estk, .epad], t = withFault c (lowByteOf i) s)

section

variable {s : State}

/-- The data faults are the four causes of R171 to R174. -/
theorem okOutcome_raise {i : Instr} {c : Cause} (hf : s.phase ≠ .fault)
    (hc : c ∈ [Cause.einvch, .ecap, .estk, .epad]) : OkOutcome i s (raise c (encode i) s) :=
  .inr ⟨hf, c, hc, raise_encode c i s⟩

theorem okOutcome_performEncb (b : Byte) (hf : s.phase ≠ .fault) : OkOutcome (.encb b) s (performEncb b s) := by
  unfold performEncb
  split_ifs
  · exact okOutcome_raise hf (by decide)
  · exact .inl rfl
  · exact okOutcome_raise hf (by decide)
  · exact .inl rfl

theorem okOutcome_performDivs (hf : s.phase ≠ .fault) : OkOutcome .divs s (performDivs s) := by
  unfold performDivs
  split_ifs
  · exact okOutcome_raise hf (by decide)
  · exact .inl rfl

theorem okOutcome_performEncf (hf : s.phase ≠ .fault) : OkOutcome .encf s (performEncf s) := by
  unfold performEncf
  split_ifs
  · exact okOutcome_raise hf (by decide)
  · exact .inl rfl

theorem okOutcome_performDecc (c : Byte) (hf : s.phase ≠ .fault) : OkOutcome (.decc c) s (performDecc c s) := by
  unfold performDecc
  cases digitOf c with
  | none => exact okOutcome_raise hf (by decide)
  | some d =>
    dsimp only
    split_ifs
    · exact okOutcome_raise hf (by decide)
    · exact .inl rfl
    · exact okOutcome_raise hf (by decide)
    · exact .inl rfl

/-- A pop stays in its output phase, whichever clause answers (42_encode R114, 43_decode R133). -/
theorem performPopc_phase (s : State) : (performPopc s).phase = s.phase := by
  unfold performPopc
  split_ifs
  · rfl
  · split <;> rfl

theorem performPopb_phase (s : State) : (performPopb s).phase = s.phase := by
  unfold performPopb
  split_ifs <;> rfl

theorem answerRead_phase (entry : Option Data) (s : State) : (answerRead entry s).phase = s.phase := by
  obtain ⟨r, h⟩ := answerRead_adds_response entry s
  rw [h]

theorem okOutcome_stateful {i : Instr} {f : State → State} (hi : .fault ∉ legalPhases i)
    (hp : s.phase ∈ legalPhases i) (hperform : s.phase ≠ .fault → OkOutcome i s (f s)) :
    OkOutcome i s (stateful i f s) := by
  rw [stateful_performed hi hp]
  exact hperform fun hf => hi (hf ▸ hp)

/-- In the phases of its row a command keeps what the `ok` entry promises. -/
theorem okOutcome_exec {i : Instr} {t : State} (hp : s.phase ∈ legalPhases i) (h : exec i s = .next t) :
    OkOutcome i s t := by
  cases i with (cases h)
  | nop | clr | lutv => exact .inl rfl
  | encb b => exact okOutcome_stateful (by simp [legalPhases]) hp (okOutcome_performEncb b)
  | divs => exact okOutcome_stateful (by simp [legalPhases]) hp okOutcome_performDivs
  | encf => exact okOutcome_stateful (by simp [legalPhases]) hp okOutcome_performEncf
  | popc =>
    have hout : s.phase = .encOut := by simpa [legalPhases] using hp
    exact okOutcome_stateful (by simp [legalPhases]) hp fun _ => .inl ((performPopc_phase s).trans hout)
  | decc c => exact okOutcome_stateful (by simp [legalPhases]) hp (okOutcome_performDecc c)
  | decf => exact okOutcome_stateful (by simp [legalPhases]) hp fun _ => .inl rfl
  | popb =>
    have hout : s.phase = .decOut := by simpa [legalPhases] using hp
    exact okOutcome_stateful (by simp [legalPhases]) hp fun _ => .inl ((performPopb_phase s).trans hout)
  | luta | rdsr | rdab | rdds => exact .inl (answerRead_phase _ s)

end

/-- Settles O24: the three entries by `exec_of_proto`, `exec_of_refused` and `okOutcome_exec`; an illegal word by
`step_of_illegal`. -/
theorem phaseTableDecidesTheOutcome : Obligations.PhaseTableDecidesTheOutcome := by
  refine ⟨fun i s => ?_, fun _ _ _ _ => step_of_illegal⟩
  obtain ⟨t, ht⟩ := exec_total i s
  refine ⟨t, ht, fun hproto => ?_, fun hrefused => ?_, fun hok => okOutcome_exec (phaseTable_eq_ok_iff.1 hok) ht⟩
  · exact Host.Outcome.next.inj (ht.symm.trans (exec_of_proto hproto))
  · exact Host.Outcome.next.inj (ht.symm.trans (exec_of_refused hrefused))

/-! ## Fault entry (R178) -/

/-- Settles O25: of the ways a step can end (`step_cases`), only taking a fault goes from another phase to FAULT. -/
theorem faultEntryIsPrecise : Obligations.FaultEntryIsPrecise := by
  intro s t w rest hhost hf hstep ht
  cases step_cases hstep with
  | waits => exact absurd ht hf
  | resets => cases ht
  | refused _ hf' => exact absurd hf' hf
  | faulted hh _ c =>
    cases hh.symm.trans hhost
    exact ⟨c, by rw [fieldLow_eq_ofNat]⟩
  | performed _ _ _ hu => exact absurd (hu.readOnly_of_fault ht).1 hf

/-! ## In FAULT (R179, R182, R183) -/

/-- Performed in FAULT, a command leaves every component as it is, or it is CLR (R179). -/
theorem Effect.of_fault {i : Instr} {s u : State} (hu : Effect i s u) (hf : s.phase = .fault) :
    u = s ∨ (i = .clr ∧ u = clearEngine s) := by
  cases hu with
  | read => exact .inl rfl
  | clear => exact .inr ⟨rfl, rfl⟩
  | countZeroByte hp | shiftInByte hp | divideOnce hp | divideToEnd hp | popPadChar hp | popDigit hp | popNoChar hp
  | countOneChar hp | addDigit hp | finishDecode hp | popPadByte hp | popByte hp | popNoByte hp => simp [hf] at hp

/-- Settles O26: a word other than CLR is refused or changes nothing, and gets its response. -/
theorem firstFaultSticks : Obligations.FirstFaultSticks := by
  intro s w rest hhost hf hw
  obtain ⟨t, hstep⟩ := step_total s
  suffices h : ∃ r, t = { s with host := rest, rsp := s.rsp ++ [r] } by simpa [hstep] using h
  cases step_cases hstep with
  | waits hh => cases hh.symm.trans hhost
  | resets hh => cases hh.symm.trans hhost
  | refused hh =>
    cases hh.symm.trans hhost
    exact ⟨_, rfl⟩
  | faulted _ hf' => exact absurd hf hf'
  | performed hh ok d hu =>
    cases hh.symm.trans hhost
    obtain rfl | ⟨rfl, -⟩ := hu.of_fault hf
    · exact ⟨_, rfl⟩
    · exact absurd rfl hw

/-- Settles O27: every other way a step can end in FAULT keeps the phase. -/
theorem onlyClrAndResetLeaveFault : Obligations.OnlyClrAndResetLeaveFault := by
  intro s t hf hstep ht
  cases step_cases hstep with
  | waits => exact absurd hf ht
  | @resets rest hh => exact ⟨rest, .inl ⟨hh, rfl⟩⟩
  | refused => exact absurd hf ht
  | faulted => exact absurd rfl ht
  | @performed _ rest _ hh ok d hu =>
    obtain rfl | ⟨rfl, -⟩ := hu.of_fault hf
    · exact absurd hf ht
    · have hclr : s.host = .command 0x1000 :: rest := hh
      exact ⟨rest, .inr ⟨hclr, Host.Outcome.next.inj (hstep.symm.trans (step_of_clr hclr))⟩⟩

end Sys2Proof.Machine
end

section
/-! PROOF. A reset and a CLR are followed by the same responses (spec/70_reset_and_hazards.md R201): either starts the
fresh engine, behind the responses given before and, after CLR, behind CLR's own. -/

namespace Sys2Proof.Machine

theorem freshEngine_eq_afterResponses (c : Config) (events : List HostEvent) (before : List RspWord) :
    freshEngine c events before = (freshEngine c events []).afterResponses before :=
  congrArg (fun r => { State.resetOf c with host := events, rsp := r }) (List.append_nil before).symm

/-- A run that begins with a reset adds to the responses what the same run of a fresh engine gives. -/
theorem runSteps_of_reset {s u : State} {events : List HostEvent} {k : Nat} (h : s.host = .reset :: events)
    (hu : runSteps k (freshEngine s.cfg events []) = .next u) :
    runSteps (k + 1) s = .next (u.afterResponses s.rsp) := by
  rw [runSteps_succ (step_of_reset h), clearEngine_eq_freshEngine, freshEngine_eq_afterResponses]
  exact runSteps_afterResponses s.rsp hu

/-- Settles O37: both engines run as one fresh engine does, the second one behind CLR's answer. -/
theorem resetAndClrGiveTheSameResponses : Obligations.ResetAndClrGiveTheSameResponses := by
  intro s s' events k hcfg hs hs'
  obtain ⟨u, hu⟩ := runSteps_total k (freshEngine s.cfg events [])
  have hclr : runSteps k (freshEngine s'.cfg events [0x01180000]) = .next (u.afterResponses [0x01180000]) :=
    hcfg ▸ runSteps_afterResponses [0x01180000] hu
  refine ⟨_, _, runSteps_of_reset hs hu, runSteps_of_clr hs' hclr, ?_⟩
  rw [newResponses_afterResponses, newResponses_afterResponses]
  rfl

end Sys2Proof.Machine
end
